-- ==== Sys2Proof/Word.lean ====
section
/-! DEFINITION. The unit of the machine, one word, and the unit of its input and output, one line of text. -/

namespace Sys2Proof

/-- One word: a signed integer (R70).  R13 says of extensions that "words are integers, not bit strings", so a word is
an exact integer and its `W`-bit range is a check made on it (R11 `InRange`), never a wrap.  Log entry 2. -/
abbrev Word := Int

/-- One line of text, handed to the output sink or answered by the input source (R15, R125, R130). -/
abbrev Line := List Char

/-- How a word is stored: the `W`-bit two's complement of the integer (R11, R54). -/
def Word.toBits (w : Nat) (v : Word) : BitVec w := BitVec.ofInt w v

/-- The integer that `W` stored bits stand for (R11, R54). -/
def Word.ofBits {w : Nat} (b : BitVec w) : Word := b.toInt

end Sys2Proof
end

