-- ==== Sys2Proof/Config.lean ====
section
/-! DEFINITION. The implementation parameters of R8: `W`, `CAP`, `BOUND`.  The spec leaves no value free beside them,
so the model has no uninterpreted constant. -/

namespace Sys2Proof

/-- The named parameters of R8. -/
structure Config where
  /-- `W`: width in bits of the accumulator and of every memory word. -/
  w : Nat
  /-- `CAP`: memory capacity in words; addresses `0 .. CAP-1` exist. -/
  cap : Nat
  /-- `BOUND`: the largest valid operand plus one, and the PC value that means halted. -/
  bound : Nat
deriving DecidableEq, Repr

/-- The defaults of R8. -/
def Config.default : Config := { w := 64, cap := 250, bound := 250 }

/-- R9: a configuration is well formed only if `W >= 21`, `CAP >= 1` and `BOUND >= 1`. -/
abbrev Config.wf (c : Config) : Prop := 21 ≤ c.w ∧ 1 ≤ c.cap ∧ 1 ≤ c.bound

/-- `PCW`, the width of the PC: the least `n` with `2^n > BOUND` (R8). -/
def Config.pcw (c : Config) : Nat := if c.bound = 0 then 0 else c.bound.log2 + 1

end Sys2Proof
end

