-- ==== Sys2Proof/Syntax.lean ====
section
/-! DEFINITION. The twelve instructions of the opcode table (R80), each with its one operand, a word address. -/

namespace Sys2Proof

/-- One constructor per row of the opcode table (R80).  The argument is the operand `a`, decimal digits 2..0 of the
word's magnitude (R73, R76). -/
inductive Instr where
  | read (a : Nat)
  | write (a : Nat)
  | load (a : Nat)
  | store (a : Nat)
  | add (a : Nat)
  | subtract (a : Nat)
  | divide (a : Nat)
  | multiply (a : Nat)
  | branch (a : Nat)
  | branchneg (a : Nat)
  | branchzero (a : Nat)
  | halt (a : Nat)
deriving DecidableEq, Repr

/-- The operand field of an instruction (R73). -/
def Instr.operand : Instr → Nat
  | .read a => a
  | .write a => a
  | .load a => a
  | .store a => a
  | .add a => a
  | .subtract a => a
  | .divide a => a
  | .multiply a => a
  | .branch a => a
  | .branchneg a => a
  | .branchzero a => a
  | .halt a => a

end Sys2Proof
end

