-- ==== Sys2Proof/WellFormed.lean ====
section
/-! DEFINITION. Which instruction terms an instruction word can hold. -/

namespace Sys2Proof

/-- R73: the operand field is three decimal digits, value 0..999.  It is the only check: the opcode is the constructor. -/
abbrev Instr.WellFormed (i : Instr) : Prop := i.operand ≤ 999

end Sys2Proof
end

