-- ==== Sys2Proof/Decode.lean ====
section
/-! DEFINITION. The decoder (R75, R80, R81), total on every word, and after it the encoder (R93). -/

namespace Sys2Proof

/-- R75: `opcode = mag div 1000`, with `mag = |w|` exact. -/
def opcodeOf (w : Word) : Nat := w.natAbs / 1000

/-- R75: `operand = mag mod 1000`. -/
def operandOf (w : Word) : Nat := w.natAbs % 1000

/-- What decoding a word gives: an instruction, or the rejection of its opcode (R81). -/
inductive Decoded where
  | instr (i : Instr)
  /-- the opcode is none of the twelve; the step raises INVALID_INSTRUCTION (R107) -/
  | undefinedOpcode (op : Nat)
deriving DecidableEq, Repr

/-- The opcode map of R80, rejecting every other opcode by its value (R81). -/
def decodeFields (op a : Nat) : Decoded :=
  match op with
  | 10 => .instr (.read a)
  | 11 => .instr (.write a)
  | 20 => .instr (.load a)
  | 21 => .instr (.store a)
  | 30 => .instr (.add a)
  | 31 => .instr (.subtract a)
  | 32 => .instr (.divide a)
  | 33 => .instr (.multiply a)
  | 40 => .instr (.branch a)
  | 41 => .instr (.branchneg a)
  | 42 => .instr (.branchzero a)
  | 43 => .instr (.halt a)
  | n => .undefinedOpcode n

/-- R75, R80: decode a word; its sign is ignored (R74). -/
def decode (w : Word) : Decoded := decodeFields (opcodeOf w) (operandOf w)

/-- The opcode column of R80. -/
def Instr.opcode : Instr → Nat
  | .read _ => 10
  | .write _ => 11
  | .load _ => 20
  | .store _ => 21
  | .add _ => 30
  | .subtract _ => 31
  | .divide _ => 32
  | .multiply _ => 33
  | .branch _ => 40
  | .branchneg _ => 41
  | .branchzero _ => 42
  | .halt _ => 43

/-- R93: `enc(o, a) = o*1000 + a`, the canonical word. -/
def enc (o a : Nat) : Word := ((o * 1000 + a : Nat) : Int)

/-- The canonical word of an instruction (R80, column 3). -/
def encode (i : Instr) : Word := enc i.opcode i.operand

/-- The word whose stored bits are the low `nbits` bits of `n`, every higher bit of the `W` bits being 0: the two's
complement reading of R11.  Log entry 12. -/
def wordOfTableBits (width nbits n : Nat) : Word :=
  let u := n % 2 ^ nbits % 2 ^ width
  if u < 2 ^ (width - 1) then (u : Int) else (u : Int) - 2 ^ width

/-- What the decoder reads from an instruction whose bits are `w`, at the default width of R8. -/
def decodeTableWord (nbits w : Nat) : Option Instr :=
  match decode (wordOfTableBits Config.default.w nbits w) with
  | .instr i => some i
  | .undefinedOpcode _ => none

end Sys2Proof
end

