-- ==== Sys2Proof/Machine/State.lean ====
section
/-! DEFINITION. Everything the spec gives the machine to hold (R21 to R31), the traces and queues of the host agents,
the reasons a step can stop, and the state right after reset. -/

namespace Sys2Proof.Machine

/-- The `STATE` field of STATUS (R26).  BUSY stands only inside a step: a step is one transition here (log entry 4). -/
inductive RunState where
  | ready
  | busy
  | waitInput
  | halted
  | faulted
deriving DecidableEq, Repr

/-- The `CAUSE` field of STATUS (R28). -/
inductive Cause where
  | none
  | invalidAddress
  | invalidInstruction
  | invalidInput
  | divideByZero
  | overflow
  | memoryRange
deriving DecidableEq, Repr

/-- The result codes of a load (R90). -/
inductive LoadCode where
  | ok
  | badLength
  | lengthMismatch
  | notNumeric
  | imageTooLarge
  | busy
deriving DecidableEq, Repr

/-- One transaction of a host agent (R35). -/
inductive HostEvent where
  /-- the driving loop's STEP (R112) -/
  | step
  /-- RESET (R220) -/
  | reset
  /-- the input source delivers a line, asked for or not (R125, R129) -/
  | inResp (line : Line)
  /-- the loader converts the lines and asks for LoadImage of the result (R84, R89) -/
  | loadProgram (lines : List Line)
  /-- HostRead of one cell (R55) -/
  | hostRead (a : Nat)
  /-- a read of `pc`, `ACC`, `IR` and `STATUS` (R32) -/
  | readRegs
deriving DecidableEq, Repr

/-- What the host gets back from a transaction (R35). -/
inductive HostReply where
  /-- the result of a load (R90) -/
  | load (code : LoadCode)
  /-- the word HostRead returns (R55) -/
  | word (v : Word)
  /-- HostRead refused because a step is in progress (R55) -/
  | readBusy
  /-- the four registers the host may read at any time (R32) -/
  | regs (pc : Nat) (acc ir : Word) (status : BitVec 8)
deriving DecidableEq, Repr

/-- Memory as data: the cells that do not hold 0, in one canonical form (`Memory.wf`).  An unlisted cell holds 0, as
R57 says of power-on.  The cell is the spec's smallest unit, a whole word (R54): log entry 3. -/
abbrev Memory := List (Nat × Word)

/-- Why the machine model stops.  CORE's own faults (R190) are not here: their entry is described (R193) and is a next
state with STATE = FAULTED. -/
inductive Fault where
  /-- Raised by the host transaction HostRead for a cell `a >= CAP`: R55 gives HostRead for `a < CAP` only, and the
  cell does not exist (R31).  No instruction raises it.  Safe: the model stops.  Log entry 8. -/
  | hostReadOutside (a : Nat)
deriving DecidableEq, Repr

/-- Why an instruction has no meaning.  No arm of `exec` and no meaning raises one. -/
inductive Refusal where
  /-- An instruction with no meaning in the model.  Raised by nobody: every instruction has its meaning.  Safe. -/
  | notModelled (mnemonic : String)
deriving DecidableEq, Repr

/-- The state of CORE, its memory, and what the host agents have queued or been handed. -/
structure State where
  /-- the parameters `W`, `CAP`, `BOUND` (R8): set at construction, changed by no step (log entry 1) -/
  cfg : Config
  /-- the program counter (R22) -/
  pc : Nat
  /-- the accumulator `ACC` (R21) -/
  acc : Word
  /-- the instruction register `IR` (R24) -/
  ir : Word
  /-- the value `IR` held when the step in progress started, which is what the host reads meanwhile (R32, D31; the fetch
  itself overwrites `IR`, R101); `none` when no step is in progress.  Log entry 15 -/
  irAtStart : Option Word
  /-- `STATUS.STATE` (R26, R27) -/
  runState : RunState
  /-- `STATUS.CAUSE` (R27, R28) -/
  cause : Cause
  /-- the pending input request `INPEND` (R29); its target address is the operand of `ir` -/
  inpend : Bool
  /-- the memory (R31, R50) -/
  mem : Memory
  /-- the output trace: the lines handed to the output sink, oldest first (R130) -/
  out : List Line
  /-- the lines the input source answers at once when asked, oldest first (R10, R128); log entry 6 -/
  inputs : List Line
  /-- the host transactions to come, oldest first; when there is none the driving loop STEPs; log entry 5 -/
  hostq : List HostEvent
  /-- what host transactions have returned, oldest first; log entry 13 -/
  replies : List HostReply
deriving DecidableEq, Repr

/-- R222: the power-on state of a machine built with the parameters `c`: R38's reset values and every cell 0. -/
def State.powerOn (c : Config) : State :=
  { cfg := c, pc := 0, acc := 0, ir := 0, irAtStart := none, runState := .ready, cause := .none, inpend := false,
    mem := [],
    out := [], inputs := [], hostq := [], replies := [] }

/-- The machine right after power-on and reset, at the default parameters of R8 (R38, R220, R222). -/
def State.reset : State := State.powerOn Config.default

/-- The result of a meaning or of a step. -/
abbrev Result := Host.Outcome State Fault Refusal

end Sys2Proof.Machine
end

