-- ==== Sys2Proof/Machine/Ops.lean ====
section
/-! DEFINITION. The named operations over memory and registers: the memory interface (R52), the fetch (R101), the
commit (R110), raising a fault and the RESET that alone leaves it (R193, R195, R220), the input handshake (R125), the
output line (R130) and the host's view of STATUS (R27). -/

namespace Sys2Proof.Machine

/-! ### Memory (R50, R52, R57) -/

/-- `MemRead(a, 1)`; a cell not listed holds 0 (R52, R57). -/
def Memory.read : Memory → Nat → Word
  | [], _ => 0
  | (b, u) :: m, a => if b = a then u else Memory.read m a

/-- `MemWrite(a, 1, v)` (R52), keeping the canonical form: writing 0 removes the cell from the list. -/
def Memory.write : Memory → Nat → Word → Memory
  | [], a, v => if v = 0 then [] else [(a, v)]
  | (b, u) :: m, a, v =>
    if a < b then (if v = 0 then (b, u) :: m else (a, v) :: (b, u) :: m)
    else if a = b then (if v = 0 then m else (a, v) :: m)
    else (b, u) :: Memory.write m a v

/-- The canonical form: addresses strictly rising, no listed cell equal to what an unlisted one reads as. -/
abbrev Memory.wf (m : Memory) : Prop :=
  m.Pairwise (fun x y => x.1 < y.1) ∧ ∀ c ∈ m, c.2 ≠ 0

/-- The words laid out from address `i` on. -/
def Memory.ofWords : Nat → List Word → Memory
  | _, [] => []
  | i, v :: vs => if v = 0 then Memory.ofWords (i + 1) vs else (i, v) :: Memory.ofWords (i + 1) vs

/-- `LoadImage(words)` (R57): `words[i]` to cell `i`, and 0 to every cell from there to `CAP - 1`. -/
def Memory.loadImage (cap : Nat) (words : List Word) (m : Memory) : Memory :=
  Memory.ofWords 0 words ++ m.filter (fun c => decide (cap ≤ c.1))

/-! ### Register updates -/

/-- The word at address `a`. -/
def State.cell (s : State) (a : Nat) : Word := s.mem.read a

/-- `ACC <- v`. -/
def State.setAcc (s : State) (v : Word) : State := { s with acc := v }

/-- `MemWrite(a, 1, v)`. -/
def State.setCell (s : State) (a : Nat) (v : Word) : State := { s with mem := s.mem.write a v }

/-- `OutputLine(l)`: one line handed to the output sink, after those already handed (R130). -/
def State.emit (s : State) (l : Line) : State := { s with out := s.out ++ [l] }

/-- What a host transaction returns, after what earlier ones returned. -/
def State.reply (s : State) (r : HostReply) : State := { s with replies := s.replies ++ [r] }

/-- The transactions to come, once one has been taken. -/
def State.setHostq (s : State) (q : List HostEvent) : State := { s with hostq := q }

/-- The lines the input source still has to answer with. -/
def State.setInputs (s : State) (ls : List Line) : State := { s with inputs := ls }

/-! ### The step (R100) -/

/-- A step is accepted: `STATE <- BUSY` (R100).  The host goes on reading the `IR` the step starts with (R32). -/
def State.beginStep (s : State) : State := { s with irAtStart := some s.ir, runState := .busy }

/-- The fetch's write of `IR`, in effect at once (R101). -/
def State.setIr (s : State) (w : Word) : State := { s with ir := w }

/-- Commit (R110): the chosen next PC, and `STATE <- (pc = BOUND) ? HALTED : READY` (R100, R109). -/
def State.commit (s : State) (next : Nat) : State :=
  { s with pc := next, irAtStart := none, runState := if next = s.cfg.bound then .halted else .ready }

/-- The sequential input of the next-PC multiplexer, `pc + 1` (R108). -/
def State.commitSeq (s : State) : State := s.commit (s.pc + 1)

/-! ### Faults (R193) and the RESET that leaves them (R195, R220) -/

/-- Raising a fault (R193): nothing the step computed is committed, STATE and CAUSE are latched, INPEND is cleared;
`pc`, `ACC` and memory stay, and `IR` stays as the fetch left it. -/
def State.enterFault (s : State) (c : Cause) : State :=
  { s with irAtStart := none, runState := .faulted, cause := c, inpend := false }

/-- `raise Fault(C, info)`.  R191: `info` has no register of its own (see `State.faultAddress`). -/
def raise (c : Cause) (s : State) : Result := .next (s.enterFault c)

/-- RESET (R220): the registers of R38; memory and the traces are not touched.  It is the only way out of FAULTED and
HALTED (R195). -/
def State.resetCore (s : State) : State :=
  { s with pc := 0, acc := 0, ir := 0, irAtStart := none, runState := .ready, cause := .none, inpend := false }

/-- The address a fault is about, recovered as R191 says: the operand of `IR` for INVALID_ADDRESS and a data
MEMORY_RANGE, `pc` itself for a MEMORY_RANGE of the fetch. -/
def State.faultAddress (s : State) : Option Nat :=
  match s.cause with
  | .invalidAddress => some (operandOf s.ir)
  | .memoryRange => some (if s.cfg.cap ≤ s.pc then s.pc else operandOf s.ir)
  | .none => none
  | .invalidInstruction => none
  | .invalidInput => none
  | .divideByZero => none
  | .overflow => none

/-! ### The input handshake (R125) -/

/-- `InReq`: INPEND is set and STATE becomes WAIT_INPUT. -/
def State.requestInput (s : State) : State := { s with runState := .waitInput, inpend := true }

/-- `InResp`: INPEND is cleared and STATE becomes BUSY. -/
def State.acceptInput (s : State) : State := { s with runState := .busy, inpend := false }

/-! ### STATUS (R27) -/

/-- The STATE values of R26. -/
def RunState.code : RunState → BitVec 3
  | .ready => 0
  | .busy => 1
  | .waitInput => 2
  | .halted => 3
  | .faulted => 4

/-- The CAUSE values of R28. -/
def Cause.code : Cause → BitVec 4
  | .none => 0
  | .invalidAddress => 1
  | .invalidInstruction => 2
  | .invalidInput => 3
  | .divideByZero => 4
  | .overflow => 5
  | .memoryRange => 6

/-- The load error numbers of R90. -/
def LoadCode.code : LoadCode → Nat
  | .ok => 0
  | .badLength => 1
  | .lengthMismatch => 2
  | .notNumeric => 3
  | .imageTooLarge => 4
  | .busy => 5

/-- STATUS (R27): CAUSE in bits 7..4, bit 3 hardwired 0, STATE in bits 2..0. -/
def State.status (s : State) : BitVec 8 := s.cause.code ++ (0#1 ++ s.runState.code)

/-- `IR` as the host reads it at any time: during a step, the value at its start (R32, D31). -/
def State.irSeen (s : State) : Word := s.irAtStart.getD s.ir

/-- A step is in progress: STATE is BUSY or WAIT_INPUT (R55). -/
def State.inProgress (s : State) : Bool :=
  match s.runState with
  | .busy => true
  | .waitInput => true
  | .ready => false
  | .halted => false
  | .faulted => false

end Sys2Proof.Machine
end

