-- ==== Sys2Proof/Machine/Operands.lean ====
section
/-! DEFINITION. The one operand form, direct addressing (R76), with the range check made before every access (R53),
and the fetch, which makes the same check on `pc` (R101). -/

namespace Sys2Proof.Machine

/-- `CheckedRead(a)` (R53): MEMORY_RANGE when `a >= CAP`, before any access; else go on with the word. -/
def checkedRead (a : Nat) (s : State) (k : Word → Result) : Result :=
  if s.cfg.cap ≤ a then raise .memoryRange s else k (s.cell a)

/-- `CheckedWrite(a, v)` (R53), then the sequential commit, which every storing instruction makes (R108, R110). -/
def checkedWriteCommit (a : Nat) (v : Word) (s : State) : Result :=
  if s.cfg.cap ≤ a then raise .memoryRange s else .next (s.setCell a v).commitSeq

/-- The fetch (R101): `none` when `pc >= CAP`, and then `IR` is unchanged. -/
def fetch (s : State) : Option State :=
  if s.cfg.cap ≤ s.pc then none else some (s.setIr (s.cell s.pc))

end Sys2Proof.Machine
end

