-- ==== Sys2Proof/Machine/Flags.lean ====
section
/-! DEFINITION. CORE has no flags (R25): what stands in their place is the range check of an exact result (R150), the
two branch conditions on `ACC` (R173, R176), and truncating division (R151). -/

namespace Sys2Proof.Machine

/-- The least word, `-2^(W-1)` (R11). -/
def wordMin (c : Config) : Int := -(2 ^ (c.w - 1) : Nat)

/-- The greatest word, `2^(W-1) - 1` (R11). -/
def wordMax (c : Config) : Int := (2 ^ (c.w - 1) : Nat) - 1

/-- `InRange(v)` (R11). -/
abbrev InRange (c : Config) (v : Int) : Prop := wordMin c ≤ v ∧ v ≤ wordMax c

/-- R150: the exact result `r` goes to `ACC` and the step commits sequentially, or the step raises OVERFLOW. -/
def writeAccChecked (r : Int) (s : State) : Result :=
  if InRange s.cfg r then .next (s.setAcc r).commitSeq else raise .overflow s

/-- BRANCHNEG's condition (R173). -/
def accNegative (s : State) : Bool := decide (s.acc < 0)

/-- BRANCHZERO's condition (R176). -/
def accZero (s : State) : Bool := decide (s.acc = 0)

/-- `tdiv(x, y)` (R151): the quotient of the magnitudes, negated when exactly one operand is negative. -/
def tdiv (x y : Int) : Int :=
  if (x < 0) ↔ (y < 0) then ((x.natAbs / y.natAbs : Nat) : Int) else -((x.natAbs / y.natAbs : Nat) : Int)

end Sys2Proof.Machine
end

