-- ==== Sys2Proof/Machine/Arith.lean ====
section
/-! DEFINITION. ADD, SUBTRACT, DIVIDE and MULTIPLY (R150 to R160). -/

namespace Sys2Proof.Machine

/-- ADD (R152). -/
def execAdd (a : Nat) (s : State) : Result :=
  checkedRead a s fun m => writeAccChecked (s.acc + m) s

/-- SUBTRACT (R154): `ACC - M[a]`. -/
def execSubtract (a : Nat) (s : State) : Result :=
  checkedRead a s fun m => writeAccChecked (s.acc - m) s

/-- DIVIDE (R156): the zero divisor is checked before the division (R158). -/
def execDivide (a : Nat) (s : State) : Result :=
  checkedRead a s fun d => if d = 0 then raise .divideByZero s else writeAccChecked (tdiv s.acc d) s

/-- MULTIPLY (R160). -/
def execMultiply (a : Nat) (s : State) : Result :=
  checkedRead a s fun m => writeAccChecked (s.acc * m) s

end Sys2Proof.Machine
end

