-- ==== Sys2Proof/Machine/Text.lean ====
section
/-! DEFINITION. The gateway's text: `ParseInt` (R127) and `dec` (R131), and the lines CORE emits (R133). -/

namespace Sys2Proof.Machine

/-- `blank` (R127): space or TAB. -/
def isBlank (c : Char) : Bool := c == ' ' || c == '\t'

/-- The ten ASCII digits in order (R85, R127). -/
def digitChars : Line := ['0', '1', '2', '3', '4', '5', '6', '7', '8', '9']

/-- An ASCII decimal digit (R85, R127). -/
def isDigit (c : Char) : Bool := digitChars.contains c

/-- The value of a digit: its place among the ten. -/
def digitVal (c : Char) : Nat := digitChars.idxOf c

/-- The character of one decimal digit. -/
def digitChar (d : Nat) : Char := digitChars.getD d '0'

/-- The value of a digit string read left to right, onto the value `n` of the digits before it. -/
def digitsValueFrom (n : Nat) : Line → Nat
  | [] => n
  | c :: cs => digitsValueFrom (10 * n + digitVal c) cs

/-- The decimal value of a digit string (R88, R127). -/
def digitsValue (ds : Line) : Nat := digitsValueFrom 0 ds

/-- An optional sign and what follows it: is it `-`, and the rest (R85, R127). -/
def splitSign : Line → Bool × Line
  | [] => (false, [])
  | c :: cs => if c = '-' then (true, cs) else if c = '+' then (false, cs) else (false, c :: cs)

/-- The value negated where the sign is `-`. -/
def signed (neg : Bool) (n : Nat) : Int := if neg then -(n : Int) else (n : Int)

/-- `ParseInt(line)` (R127): `blank* sign? digit+ blank*`, with a value in range; `none` is INVALID. -/
def parseInt (c : Config) (line : Line) : Option Word :=
  let (neg, body) := splitSign (line.dropWhile isBlank)
  let ds := body.takeWhile isDigit
  let v := signed neg (digitsValue ds)
  if ds ≠ [] ∧ (body.dropWhile isDigit).all isBlank = true ∧ InRange c v then some v else none

/-- The decimal digits of `n` put before `tail`; `fuel` bounds their number. -/
def decNatOnto : Nat → Nat → Line → Line
  | 0, _, tail => tail
  | fuel + 1, n, tail =>
    if n < 10 then digitChar n :: tail else decNatOnto fuel (n / 10) (digitChar (n % 10) :: tail)

/-- The decimal digits of `n`, no leading zeros, `0` for zero (R131).  A number has no more decimal digits than
binary ones. -/
def decNat (n : Nat) : Line := decNatOnto (n.log2 + 1) n []

/-- `dec(v)` (R131). -/
def dec (v : Int) : Line := if v < 0 then '-' :: decNat v.natAbs else decNat v.natAbs

/-- WRITE's line, `"Output: " ++ dec(v)` (R122). -/
def outputLine (v : Int) : Line := ['O', 'u', 't', 'p', 'u', 't', ':', ' '] ++ dec v

/-- HALT's line, `"Program finished"` (R178). -/
def finishedLine : Line :=
  ['P', 'r', 'o', 'g', 'r', 'a', 'm', ' ', 'f', 'i', 'n', 'i', 's', 'h', 'e', 'd']

end Sys2Proof.Machine
end

