-- ==== Sys2Proof/Machine/Control.lean ====
section
/-! DEFINITION. BRANCH, BRANCHNEG, BRANCHZERO and HALT (R170 to R178): the inputs of the next-PC multiplexer that are not
`pc + 1` (R108). -/

namespace Sys2Proof.Machine

/-- BRANCH (R170). -/
def execBranch (a : Nat) (s : State) : Result := .next (s.commit a)

/-- BRANCHNEG (R172); not taken means the PC stays (R177). -/
def execBranchneg (a : Nat) (s : State) : Result := .next (s.commit (if accNegative s then a else s.pc))

/-- BRANCHZERO (R175); not taken means the PC stays (R177). -/
def execBranchzero (a : Nat) (s : State) : Result := .next (s.commit (if accZero s then a else s.pc))

/-- HALT (R178); the operand is ignored. -/
def execHalt (_a : Nat) (s : State) : Result := .next ((s.emit finishedLine).commit s.cfg.bound)

end Sys2Proof.Machine
end

