-- ==== Sys2Proof/Machine/Io.lean ====
section
/-! DEFINITION. READ and WRITE (R120 to R122), and the rest of a READ once its line is there (R125, R66). -/

namespace Sys2Proof.Machine

/-- "The rest of that same step: parse, bounds-write, increment" (R66, R121): the line is parsed first, so INVALID_INPUT
comes before MEMORY_RANGE (R196). -/
def finishRead (a : Nat) (line : Line) (s : State) : Result :=
  match parseInt s.cfg line with
  | none => raise .invalidInput s
  | some v => checkedWriteCommit a v s

/-- READ (R120).  The request is issued (R125); if the input source answers at once the same step goes on with that
line, else the step is suspended in WAIT_INPUT, and `resumeRead` ends it when a line comes (log entry 6). -/
def execRead (a : Nat) (s : State) : Result :=
  match s.inputs with
  | [] => .next s.requestInput
  | line :: rest => finishRead a line (s.setInputs rest).requestInput.acceptInput

/-- `InResp(line)` for the READ in progress (R125): its target is the operand of `IR` (R29). -/
def resumeRead (line : Line) (s : State) : Result :=
  finishRead (operandOf s.ir) line s.acceptInput

/-- WRITE (R122). -/
def execWrite (a : Nat) (s : State) : Result :=
  checkedRead a s fun v => .next (s.emit (outputLine v)).commitSeq

end Sys2Proof.Machine
end

