-- ==== Sys2Proof/Machine/LoadStore.lean ====
section
/-! DEFINITION. LOAD and STORE (R140, R142). -/

namespace Sys2Proof.Machine

/-- LOAD (R140). -/
def execLoad (a : Nat) (s : State) : Result :=
  checkedRead a s fun v => .next (s.setAcc v).commitSeq

/-- STORE (R142). -/
def execStore (a : Nat) (s : State) : Result := checkedWriteCommit a s.acc s

end Sys2Proof.Machine
end

