-- ==== Sys2Proof/Machine/Loader.lean ====
section
/-! DEFINITION. The host's loader (R84 to R91) and its memory port (R55): program lines become words, checked and
written all or nothing.  With them the line forms of R93. -/

namespace Sys2Proof.Machine

/-- The core of a line: what follows its sign, if it has one (R85). -/
def coreOf (l : Line) : Line := (splitSign l).2

/-- The core laid out as six digits: a four-digit core `ABCD` as `0AB0CD` (R88). -/
def padCore : Line → Line
  | [c0, c1, c2, c3] => ['0', c0, c1, '0', c2, c3]
  | c => c

/-- The word a line stands for (R88). -/
def lineWord (l : Line) : Word := signed (splitSign l).1 (digitsValue (padCore (coreOf l)))

/-- The checks of one line, in R89's order; `first` is the core length of line 0, or nothing when this is line 0. -/
def checkLine (first : Option Nat) (l : Line) : LoadCode :=
  if (coreOf l).all isDigit = false then .notNumeric
  else if (coreOf l).length ≠ 4 ∧ (coreOf l).length ≠ 6 then .badLength
  else
    match first with
    | none => .ok
    | some n => if (coreOf l).length ≠ n then .lengthMismatch else .ok

/-- The checks of every line in order; the first failure is the one reported (R89). -/
def checkLines (first : Option Nat) : List Line → LoadCode
  | [] => .ok
  | l :: ls =>
    match checkLine first l with
    | .ok => checkLines (some (first.getD (coreOf l).length)) ls
    | .badLength => .badLength
    | .lengthMismatch => .lengthMismatch
    | .notNumeric => .notNumeric
    | .imageTooLarge => .imageTooLarge
    | .busy => .busy

/-- The checks of a whole load (R89). -/
def checkProgram (cap : Nat) (ls : List Line) : LoadCode :=
  if cap < ls.length then .imageTooLarge else checkLines none ls

/-- The loader and LoadImage as one transaction (R55, R84, R89): refused with BUSY while a step is in progress, else
rejected whole with the first failing check, else the image is written; only memory changes (R225).  Log entry 9. -/
def loadProgram (ls : List Line) (s : State) : State :=
  if s.inProgress then s.reply (.load .busy)
  else
    match checkProgram s.cfg.cap ls with
    | .ok => { s with mem := s.mem.loadImage s.cfg.cap (ls.map lineWord), replies := s.replies ++ [.load .ok] }
    | e => s.reply (.load e)

/-- `HostRead(a)` (R55): refused while a step is in progress, else `M[a]`.  Log entry 8 for `a >= CAP`. -/
def hostRead (a : Nat) (s : State) : Result :=
  if s.inProgress then .next (s.reply .readBusy)
  else if s.cfg.cap ≤ a then .fault (.hostReadOutside a)
  else .next (s.reply (.word (s.cell a)))

/-- The host's read of the four registers (R32): during a step the values at its start, but STATUS, in which the host
sees WAIT_INPUT (R29).  Log entry 15. -/
def readRegs (s : State) : State := s.reply (.regs s.pc s.acc s.irSeen s.status)

/-! ### Line forms (R91, R93) -/

/-- `n` as `k` decimal digits with leading zeros. -/
def decPadded : Nat → Nat → Line
  | 0, _ => []
  | k + 1, n => decPadded k (n / 10) ++ [digitChar (n % 10)]

/-- `line6(o, a)` (R93). -/
def line6 (o a : Nat) : Line := decPadded 6 (o * 1000 + a)

/-- `line4(o, a)` (R93). -/
def line4 (o a : Nat) : Line := decPadded 2 o ++ decPadded 2 a

/-- The six-digit line of a word read back (R91). -/
def unload6 (v : Word) : Line := if v < 0 then '-' :: decPadded 6 v.natAbs else decPadded 6 v.natAbs

/-- The four-digit line recovered from a word by the inverse of the padding, `sign ++ d[1..2] ++ d[4..5]` (R91). -/
def unload4 (v : Word) : Line :=
  let d := decPadded 6 v.natAbs
  let body := (d.drop 1).take 2 ++ (d.drop 4).take 2
  if v < 0 then '-' :: body else body

end Sys2Proof.Machine
end

