-- ==== Sys2Proof/Machine/Cycle.lean ====
section
/-! DEFINITION. The step cycle around an instruction's operation (R100 to R107), the STEP request in every STATE (R113),
and the other host transactions (R35). -/

namespace Sys2Proof.Machine

/-- Address check, decode and dispatch of the word in `IR` (R103 to R107): the address check comes before the opcode
check, for every word (R105). -/
def runFetched (s : State) : Result :=
  if s.cfg.bound ≤ operandOf s.ir then raise .invalidAddress s
  else
    match decode s.ir with
    | .undefinedOpcode _ => raise .invalidInstruction s
    | .instr i => exec i s

/-- R100: the whole step from READY. -/
def runInstruction (s : State) : Result :=
  match fetch s.beginStep with
  | none => raise .memoryRange s.beginStep
  | some s' => runFetched s'

/-- A STEP request in each STATE (R112, R113).  In WAIT_INPUT the step in progress goes on if the input source has a
line, and else is held (R116 (c)); in HALTED and FAULTED there is no effect. -/
def stepRequest (s : State) : Result :=
  match s.runState with
  | .ready => runInstruction s
  | .busy => .next s
  | .waitInput =>
    match s.inputs with
    | [] => .next s
    | line :: rest => resumeRead line (s.setInputs rest)
  | .halted => .next s
  | .faulted => .next s

/-- One host transaction (R35).  A line nobody asked for is ignored (R129). -/
def hostTransaction (e : HostEvent) (s : State) : Result :=
  match e with
  | .step => stepRequest s
  | .reset => .next s.resetCore
  | .inResp line => if s.inpend then resumeRead line s else .next s
  | .loadProgram ls => .next (loadProgram ls s)
  | .hostRead a => hostRead a s
  | .readRegs => .next (readRegs s)

/-- The next transaction CORE takes, and those that stay.  While a step is in progress a STEP request is not accepted:
it stays pending and the transactions behind it are still served (R113; log entry 7). -/
def takeEvent (inProgress : Bool) : List HostEvent → Option (HostEvent × List HostEvent)
  | [] => none
  | .step :: q =>
    if inProgress then
      match takeEvent inProgress q with
      | none => none
      | some (e, rest) => some (e, .step :: rest)
    else some (.step, q)
  | .reset :: q => some (.reset, q)
  | .inResp line :: q => some (.inResp line, q)
  | .loadProgram ls :: q => some (.loadProgram ls, q)
  | .hostRead a :: q => some (.hostRead a, q)
  | .readRegs :: q => some (.readRegs, q)

/-- One transition of the machine: the next transaction in the host's queue, and when it holds none that CORE can take,
the driving loop's STEP (R112; log entry 5). -/
def transition (s : State) : Result :=
  match takeEvent s.inProgress s.hostq with
  | some (e, q) => hostTransaction e (s.setHostq q)
  | none => stepRequest s

/-- The state in which the next transition fetches and runs the word `w`: STATE READY, no other transaction before it,
and the word at `pc` (at 0 where `pc` names no cell that can be fetched).  Log entry 12. -/
def placeWord (s : State) (w : Word) : State :=
  let at_ := if s.pc < s.cfg.bound ∧ s.pc < s.cfg.cap then s.pc else 0
  { s with
    pc := at_, irAtStart := none, runState := .ready, cause := .none, inpend := false, hostq := [],
    mem := s.mem.write at_ w }

end Sys2Proof.Machine
end

