-- ==== Sys2Proof/Machine/Step.lean ====
section
/-! DEFINITION. The step function, and where a program word is placed for it. -/

namespace Sys2Proof.Machine

/-- One step of the machine. -/
def step (s : State) : Host.Outcome State Fault Refusal := transition s

/-- The instruction whose bits are `w`, stored where `step` fetches its next instruction (log entry 12). -/
def State.withFetchWord (s : State) (nbits w : Nat) : State :=
  placeWord s (wordOfTableBits s.cfg.w nbits w)

end Sys2Proof.Machine
end

