-- ==== Sys2Proof/Safety.lean ====
section
/-! DEFINITION. The terms claims are stated in: when a transition is a STEP, what it fetches, and the invariant that rules
out the states no run reaches. -/

namespace Sys2Proof.Machine

/-- The next transition is a STEP request that CORE accepts (R112, R113): the host has queued nothing, or no step is in
progress and STEP is what it has queued next. -/
abbrev StepIsNext (s : State) : Prop :=
  s.hostq = [] ∨ (s.inProgress = false ∧ s.hostq.head? = some .step)

/-- The next transition is a step that fetches the word `w` (R101, R102). -/
abbrev Fetches (s : State) (w : Word) : Prop :=
  StepIsNext s ∧ s.runState = .ready ∧ s.pc < s.cfg.cap ∧ s.cell s.pc = w

/-- The state an operation starts from: the STEP is taken from the queue, STATE is BUSY and `IR` holds the fetched word
(R100, R101); the host still reads the old `IR` (R32). -/
def State.fetched (s : State) (w : Word) : State :=
  { s with hostq := s.hostq.tail, runState := .busy, irAtStart := some s.ir, ir := w }

/-- The state a step that fetched `w` leaves when it raises the fault `c` (R193): `pc`, `ACC`, memory and the output trace
are those the step began with. -/
def State.faultedAs (s : State) (w : Word) (c : Cause) : State :=
  { s with hostq := s.hostq.tail, ir := w, irAtStart := none, runState := .faulted, cause := c, inpend := false }

/-- `a` is the operand of a word: decimal digits 2..0 of its magnitude (R73), and `o` the digits above them. -/
abbrev HasFields (w : Word) (o a : Nat) : Prop := w.natAbs = 1000 * o + a ∧ a ≤ 999

/-- STATE after a commit of the PC `next` (R109). -/
def stateAt (c : Config) (next : Nat) : RunState := if next = c.bound then .halted else .ready

/-- The checks R89 makes of one line of a program, as conditions: only ASCII digits in its core (R85); -/
abbrev LineNumeric (l : Line) : Prop := ∀ c ∈ coreOf l, isDigit c = true

/-- four or six of them (R86); -/
abbrev LineLength (l : Line) : Prop := (coreOf l).length = 4 ∨ (coreOf l).length = 6

/-- and as many as line 0 of the program `ls` has (R87). -/
abbrev LineMatches (ls : List Line) (l : Line) : Prop := (coreOf l).length = (coreOf (ls.headD [])).length

/-- A line of the program `ls` that passes every check. -/
abbrev LineGood (ls : List Line) (l : Line) : Prop := LineNumeric l ∧ LineLength l ∧ LineMatches ls l

/-- The transactions `q` are those `s` has queued, or those without the one taken: the first, or while a step is in
progress the first that is no STEP (R113). -/
abbrev QueueAfter (s : State) (q : List HostEvent) : Prop :=
  q = s.hostq ∨ ∃ (n : Nat) (e : HostEvent) (rest : List HostEvent),
    s.hostq = List.replicate n .step ++ e :: rest ∧ q = List.replicate n .step ++ rest ∧
    (s.inProgress = false → n = 0) ∧ (e = .step → s.inProgress = false)

/-- What is true between steps in every state a run reaches. -/
structure State.Inv (s : State) : Prop where
  /-- R9 -/
  cfg_wf : s.cfg.wf
  /-- R23 -/
  pc_le_bound : s.pc ≤ s.cfg.bound
  /-- R21 -/
  acc_inRange : InRange s.cfg s.acc
  /-- R24 -/
  ir_inRange : InRange s.cfg s.ir
  /-- the canonical form of memory as data -/
  mem_wf : s.mem.wf
  /-- R31, R53: only cells below CAP exist, and each holds a `W`-bit word -/
  mem_cells : ∀ c ∈ s.mem, c.1 < s.cfg.cap ∧ InRange s.cfg c.2
  /-- R28 -/
  cause_iff_faulted : s.cause ≠ .none ↔ s.runState = .faulted
  /-- R29 -/
  inpend_iff_waiting : s.inpend = true ↔ s.runState = .waitInput
  /-- R37; a faulted step keeps the PC below BOUND -/
  halted_iff_at_bound : s.runState = .halted ↔ s.pc = s.cfg.bound
  /-- R26: BUSY stands only inside a step -/
  not_busy : s.runState ≠ .busy
  /-- R32: the start value of `IR` is held exactly while a step is in progress -/
  irAtStart_iff_waiting : s.irAtStart.isSome = true ↔ s.runState = .waitInput
  /-- R24, R32: the host reads a word as `IR` -/
  irSeen_inRange : InRange s.cfg s.irSeen
  /-- R29, R66: a waiting step is a READ whose word still stands at `pc` -/
  waiting_on_read : s.runState = .waitInput →
    opcodeOf s.ir = 10 ∧ operandOf s.ir < s.cfg.bound ∧ s.pc < s.cfg.cap ∧ s.cell s.pc = s.ir

end Sys2Proof.Machine
end

