-- ==== Sys2Proof/Certificates/Slice0/Obligations.lean ====
section
/-! DEFINITION. The statements for the provers.  A docstring names the rule a statement formalises; where a rule carries
the spec's own decision mark (D<n>), or the model's log entry decides a point, the docstring says so. -/

open Sys2Proof Sys2Proof.Machine

/-! ### The step cycle -/

/-- R100, R103, R106: a step that fetches a word which decodes to `i`, its operand below BOUND, is `exec i` on the state
with STATE BUSY and the word in `IR`; nothing else is put around `exec`. -/
def Obligations.StepRunsDecodedInstruction : Prop :=
  ∀ (s : State) (w : Word) (i : Instr), Fetches s w → decode w = .instr i → i.operand < s.cfg.bound →
    i.WellFormed ∧ step s = exec i (s.fetched w)

/-- R101, R53 (decisions D6, D27): a fetch at `pc >= CAP` raises MEMORY_RANGE and `IR` keeps its value. -/
def Obligations.FetchBeyondCapacityFaults : Prop :=
  ∀ s : State, StepIsNext s → s.runState = .ready → s.cfg.cap ≤ s.pc →
    step s = .next { s with
      hostq := s.hostq.tail, irAtStart := none, runState := .faulted, cause := .memoryRange, inpend := false }

/-- R105 (decision D7): a fetched word whose operand is `>= BOUND` raises INVALID_ADDRESS, whatever its opcode. -/
def Obligations.AddressCheckPrecedesDispatch : Prop :=
  ∀ (s : State) (w : Word) (o a : Nat), Fetches s w → HasFields w o a → s.cfg.bound ≤ a →
    step s = .next (s.faultedAs w .invalidAddress)

/-- R107: an opcode that is not one of the twelve raises INVALID_INSTRUCTION, after the address check. -/
def Obligations.UndefinedOpcodeFaults : Prop :=
  ∀ (s : State) (w : Word) (o a : Nat), Fetches s w → HasFields w o a → a < s.cfg.bound →
    o ∉ [10, 11, 20, 21, 30, 31, 32, 33, 40, 41, 42, 43] →
    step s = .next (s.faultedAs w .invalidInstruction)

/-! ### The instructions, each from its fetched word to the state the step leaves -/

/-- R120, R121 (decision D6: the parse comes before the range check, and the line is consumed), for a READ that has to
wait and for one whose line is there when it is asked for.  That such a READ ends within the same transition is the
model's choice, log entry 6; that the host goes on reading the old `IR` while it waits is R32 (log entry 15). -/
def Obligations.ReadRule : Prop :=
  ∀ (s : State) (w : Word) (a : Nat), Fetches s w → HasFields w 10 a →
    (s.cfg.bound ≤ a → step s = .next (s.faultedAs w .invalidAddress)) ∧
    (a < s.cfg.bound → s.inputs = [] →
      step s = .next { s with
        hostq := s.hostq.tail, ir := w, irAtStart := some s.ir, runState := .waitInput, inpend := true }) ∧
    (∀ line rest, a < s.cfg.bound → s.inputs = line :: rest → parseInt s.cfg line = none →
      step s = .next { s.faultedAs w .invalidInput with inputs := rest }) ∧
    (∀ line rest v, a < s.cfg.bound → s.inputs = line :: rest → parseInt s.cfg line = some v → s.cfg.cap ≤ a →
      step s = .next { s.faultedAs w .memoryRange with inputs := rest }) ∧
    (∀ line rest v, a < s.cfg.bound → s.inputs = line :: rest → parseInt s.cfg line = some v → a < s.cfg.cap →
      step s = .next { s with
        hostq := s.hostq.tail, ir := w, inputs := rest, inpend := false, mem := s.mem.write a v,
        pc := s.pc + 1, irAtStart := none, runState := stateAt s.cfg (s.pc + 1) })

/-- R122. -/
def Obligations.WriteRule : Prop :=
  ∀ (s : State) (w : Word) (a : Nat), Fetches s w → HasFields w 11 a →
    (s.cfg.bound ≤ a → step s = .next (s.faultedAs w .invalidAddress)) ∧
    (a < s.cfg.bound → s.cfg.cap ≤ a → step s = .next (s.faultedAs w .memoryRange)) ∧
    (a < s.cfg.bound → a < s.cfg.cap →
      step s = .next { s with
        hostq := s.hostq.tail, ir := w, out := s.out ++ ["Output: ".toList ++ dec (s.cell a)],
        pc := s.pc + 1, irAtStart := none, runState := stateAt s.cfg (s.pc + 1) })

/-- R140. -/
def Obligations.LoadRule : Prop :=
  ∀ (s : State) (w : Word) (a : Nat), Fetches s w → HasFields w 20 a →
    (s.cfg.bound ≤ a → step s = .next (s.faultedAs w .invalidAddress)) ∧
    (a < s.cfg.bound → s.cfg.cap ≤ a → step s = .next (s.faultedAs w .memoryRange)) ∧
    (a < s.cfg.bound → a < s.cfg.cap →
      step s = .next { s with
        hostq := s.hostq.tail, ir := w, acc := s.cell a,
        pc := s.pc + 1, irAtStart := none, runState := stateAt s.cfg (s.pc + 1) })

/-- R142. -/
def Obligations.StoreRule : Prop :=
  ∀ (s : State) (w : Word) (a : Nat), Fetches s w → HasFields w 21 a →
    (s.cfg.bound ≤ a → step s = .next (s.faultedAs w .invalidAddress)) ∧
    (a < s.cfg.bound → s.cfg.cap ≤ a → step s = .next (s.faultedAs w .memoryRange)) ∧
    (a < s.cfg.bound → a < s.cfg.cap →
      step s = .next { s with
        hostq := s.hostq.tail, ir := w, mem := s.mem.write a s.acc,
        pc := s.pc + 1, irAtStart := none, runState := stateAt s.cfg (s.pc + 1) })

/-- R152; its OVERFLOW clause is R150 (decision D2, log entry 14), its MEMORY_RANGE clause R53 (decision D6). -/
def Obligations.AddRule : Prop :=
  ∀ (s : State) (w : Word) (a : Nat), Fetches s w → HasFields w 30 a →
    (s.cfg.bound ≤ a → step s = .next (s.faultedAs w .invalidAddress)) ∧
    (a < s.cfg.bound → s.cfg.cap ≤ a → step s = .next (s.faultedAs w .memoryRange)) ∧
    (a < s.cfg.bound → a < s.cfg.cap → ¬ InRange s.cfg (s.acc + s.cell a) →
      step s = .next (s.faultedAs w .overflow)) ∧
    (a < s.cfg.bound → a < s.cfg.cap → InRange s.cfg (s.acc + s.cell a) →
      step s = .next { s with
        hostq := s.hostq.tail, ir := w, acc := s.acc + s.cell a,
        pc := s.pc + 1, irAtStart := none, runState := stateAt s.cfg (s.pc + 1) })

/-- R154; its OVERFLOW clause is R150 (decision D2, log entry 14), its MEMORY_RANGE clause R53 (decision D6). -/
def Obligations.SubtractRule : Prop :=
  ∀ (s : State) (w : Word) (a : Nat), Fetches s w → HasFields w 31 a →
    (s.cfg.bound ≤ a → step s = .next (s.faultedAs w .invalidAddress)) ∧
    (a < s.cfg.bound → s.cfg.cap ≤ a → step s = .next (s.faultedAs w .memoryRange)) ∧
    (a < s.cfg.bound → a < s.cfg.cap → ¬ InRange s.cfg (s.acc - s.cell a) →
      step s = .next (s.faultedAs w .overflow)) ∧
    (a < s.cfg.bound → a < s.cfg.cap → InRange s.cfg (s.acc - s.cell a) →
      step s = .next { s with
        hostq := s.hostq.tail, ir := w, acc := s.acc - s.cell a,
        pc := s.pc + 1, irAtStart := none, runState := stateAt s.cfg (s.pc + 1) })

/-- R156, with the quotient truncated toward zero (`Int.tdiv`; decision D3), the zero divisor of R158 (decision D4), the
OVERFLOW of R150 (decision D2) and the MEMORY_RANGE of R53 (decision D6): log entry 14. -/
def Obligations.DivideRule : Prop :=
  ∀ (s : State) (w : Word) (a : Nat), Fetches s w → HasFields w 32 a →
    (s.cfg.bound ≤ a → step s = .next (s.faultedAs w .invalidAddress)) ∧
    (a < s.cfg.bound → s.cfg.cap ≤ a → step s = .next (s.faultedAs w .memoryRange)) ∧
    (a < s.cfg.bound → a < s.cfg.cap → s.cell a = 0 → step s = .next (s.faultedAs w .divideByZero)) ∧
    (a < s.cfg.bound → a < s.cfg.cap → s.cell a ≠ 0 → ¬ InRange s.cfg (s.acc.tdiv (s.cell a)) →
      step s = .next (s.faultedAs w .overflow)) ∧
    (a < s.cfg.bound → a < s.cfg.cap → s.cell a ≠ 0 → InRange s.cfg (s.acc.tdiv (s.cell a)) →
      step s = .next { s with
        hostq := s.hostq.tail, ir := w, acc := s.acc.tdiv (s.cell a),
        pc := s.pc + 1, irAtStart := none, runState := stateAt s.cfg (s.pc + 1) })

/-- R160; its OVERFLOW clause is R150 (decision D2, log entry 14), its MEMORY_RANGE clause R53 (decision D6). -/
def Obligations.MultiplyRule : Prop :=
  ∀ (s : State) (w : Word) (a : Nat), Fetches s w → HasFields w 33 a →
    (s.cfg.bound ≤ a → step s = .next (s.faultedAs w .invalidAddress)) ∧
    (a < s.cfg.bound → s.cfg.cap ≤ a → step s = .next (s.faultedAs w .memoryRange)) ∧
    (a < s.cfg.bound → a < s.cfg.cap → ¬ InRange s.cfg (s.acc * s.cell a) →
      step s = .next (s.faultedAs w .overflow)) ∧
    (a < s.cfg.bound → a < s.cfg.cap → InRange s.cfg (s.acc * s.cell a) →
      step s = .next { s with
        hostq := s.hostq.tail, ir := w, acc := s.acc * s.cell a,
        pc := s.pc + 1, irAtStart := none, runState := stateAt s.cfg (s.pc + 1) })

/-- R170: the target is the next PC; a target at or past CAP is accepted here. -/
def Obligations.BranchRule : Prop :=
  ∀ (s : State) (w : Word) (a : Nat), Fetches s w → HasFields w 40 a →
    (s.cfg.bound ≤ a → step s = .next (s.faultedAs w .invalidAddress)) ∧
    (a < s.cfg.bound →
      step s = .next { s with hostq := s.hostq.tail, ir := w, irAtStart := none, pc := a, runState := .ready })

/-- R172, R173: taken exactly when `ACC < 0`, else the PC stays (R177). -/
def Obligations.BranchnegRule : Prop :=
  ∀ (s : State) (w : Word) (a : Nat), Fetches s w → HasFields w 41 a → s.pc < s.cfg.bound →
    (s.cfg.bound ≤ a → step s = .next (s.faultedAs w .invalidAddress)) ∧
    (a < s.cfg.bound → s.acc < 0 →
      step s = .next { s with hostq := s.hostq.tail, ir := w, irAtStart := none, pc := a, runState := .ready }) ∧
    (a < s.cfg.bound → 0 ≤ s.acc →
      step s = .next { s with hostq := s.hostq.tail, ir := w, irAtStart := none, runState := .ready })

/-- R175, R176: taken exactly when `ACC = 0`, else the PC stays (R177). -/
def Obligations.BranchzeroRule : Prop :=
  ∀ (s : State) (w : Word) (a : Nat), Fetches s w → HasFields w 42 a → s.pc < s.cfg.bound →
    (s.cfg.bound ≤ a → step s = .next (s.faultedAs w .invalidAddress)) ∧
    (a < s.cfg.bound → s.acc = 0 →
      step s = .next { s with hostq := s.hostq.tail, ir := w, irAtStart := none, pc := a, runState := .ready }) ∧
    (a < s.cfg.bound → s.acc ≠ 0 →
      step s = .next { s with hostq := s.hostq.tail, ir := w, irAtStart := none, runState := .ready })

/-- R178; the INVALID_ADDRESS clause is decision D7 (log entry 14), and every operand below BOUND gives one result. -/
def Obligations.HaltRule : Prop :=
  ∀ (s : State) (w : Word) (a : Nat), Fetches s w → HasFields w 43 a →
    (s.cfg.bound ≤ a → step s = .next (s.faultedAs w .invalidAddress)) ∧
    (a < s.cfg.bound →
      step s = .next { s with
        hostq := s.hostq.tail, ir := w, out := s.out ++ ["Program finished".toList],
        irAtStart := none, pc := s.cfg.bound, runState := .halted })

/-! ### Where each instruction completes -/

/-- R36, R140, R142, R122: LOAD, STORE and WRITE complete wherever the operand names a cell. -/
def Obligations.LoadStoreWriteComplete : Prop :=
  ∀ (a : Nat) (s : State), a < s.cfg.cap →
    exec (.load a) s = .next { s with
      acc := s.cell a, pc := s.pc + 1, irAtStart := none, runState := stateAt s.cfg (s.pc + 1) } ∧
    exec (.store a) s = .next { s with
      mem := s.mem.write a s.acc, pc := s.pc + 1, irAtStart := none, runState := stateAt s.cfg (s.pc + 1) } ∧
    exec (.write a) s = .next { s with
      out := s.out ++ ["Output: ".toList ++ dec (s.cell a)],
      pc := s.pc + 1, irAtStart := none, runState := stateAt s.cfg (s.pc + 1) }

/-- R150, R152, R154, R156, R160: each arithmetic instruction completes wherever the operand names a cell, the divisor is
not 0 and the exact result is in range. -/
def Obligations.ArithmeticCompletes : Prop :=
  ∀ (a : Nat) (s : State), a < s.cfg.cap →
    (InRange s.cfg (s.acc + s.cell a) →
      exec (.add a) s = .next { s with
        acc := s.acc + s.cell a, pc := s.pc + 1, irAtStart := none, runState := stateAt s.cfg (s.pc + 1) }) ∧
    (InRange s.cfg (s.acc - s.cell a) →
      exec (.subtract a) s = .next { s with
        acc := s.acc - s.cell a, pc := s.pc + 1, irAtStart := none, runState := stateAt s.cfg (s.pc + 1) }) ∧
    (s.cell a ≠ 0 → InRange s.cfg (s.acc.tdiv (s.cell a)) →
      exec (.divide a) s = .next { s with
        acc := s.acc.tdiv (s.cell a), pc := s.pc + 1, irAtStart := none, runState := stateAt s.cfg (s.pc + 1) }) ∧
    (InRange s.cfg (s.acc * s.cell a) →
      exec (.multiply a) s = .next { s with
        acc := s.acc * s.cell a, pc := s.pc + 1, irAtStart := none, runState := stateAt s.cfg (s.pc + 1) })

/-- R108, R170, R172, R175, R178: the control-transfer group completes in every state; the next PC is the operand, the
present PC or BOUND, never `pc + 1`. -/
def Obligations.ControlCompletes : Prop :=
  ∀ (a : Nat) (s : State),
    exec (.branch a) s = .next { s with pc := a, irAtStart := none, runState := stateAt s.cfg a } ∧
    (s.acc < 0 → exec (.branchneg a) s = .next { s with pc := a, irAtStart := none, runState := stateAt s.cfg a }) ∧
    (0 ≤ s.acc → exec (.branchneg a) s = .next { s with irAtStart := none, runState := stateAt s.cfg s.pc }) ∧
    (s.acc = 0 → exec (.branchzero a) s = .next { s with pc := a, irAtStart := none, runState := stateAt s.cfg a }) ∧
    (s.acc ≠ 0 → exec (.branchzero a) s = .next { s with irAtStart := none, runState := stateAt s.cfg s.pc }) ∧
    exec (.halt a) s = .next { s with
      out := s.out ++ ["Program finished".toList], irAtStart := none, pc := s.cfg.bound, runState := .halted }

/-- R120, R125: READ completes, its value written, wherever its line parses and the operand names a cell.  That it does so
within one `exec`, because the line stands in `inputs`, is the model's choice (log entry 6). -/
def Obligations.ReadCompletes : Prop :=
  ∀ (a : Nat) (s : State) (line : Line) (rest : List Line) (v : Word),
    s.inputs = line :: rest → parseInt s.cfg line = some v → a < s.cfg.cap →
    exec (.read a) s = .next { s with
      inputs := rest, inpend := false, mem := s.mem.write a v,
      pc := s.pc + 1, irAtStart := none, runState := stateAt s.cfg (s.pc + 1) }

/-! ### Frames -/

/-- R36, R163: LOAD and the arithmetic instructions write `ACC`, `pc` and STATUS and nothing else, and where they fault
neither `ACC` nor `pc`. -/
def Obligations.AccumulatorInstructionsFrame : Prop :=
  ∀ (a : Nat) (i : Instr) (s t : State), i ∈ [.load a, .add a, .subtract a, .divide a, .multiply a] →
    exec i s = .next t →
    (∀ b, t.cell b = s.cell b) ∧ t.mem = s.mem ∧ t.ir = s.ir ∧ t.cfg = s.cfg ∧ t.out = s.out ∧ t.inputs = s.inputs ∧
    t.hostq = s.hostq ∧ t.replies = s.replies ∧
    t.irAtStart = none ∧
    (t.runState = .faulted → t.acc = s.acc ∧ t.pc = s.pc ∧ t.inpend = false) ∧
    (t.runState ≠ .faulted → t.cause = s.cause ∧ t.inpend = s.inpend)

/-- R36: STORE and READ write no cell but their operand's, and neither writes `ACC`; where they fault or wait, no cell
at all.  READ takes at most the first line of the input source. -/
def Obligations.StoringInstructionsFrame : Prop :=
  ∀ (a : Nat) (i : Instr) (s t : State), i ∈ [.store a, .read a] → exec i s = .next t →
    (∀ b, b ≠ a → t.cell b = s.cell b) ∧ t.acc = s.acc ∧ t.ir = s.ir ∧ t.cfg = s.cfg ∧ t.out = s.out ∧
    t.hostq = s.hostq ∧ t.replies = s.replies ∧
    (i = .store a → t.inputs = s.inputs ∧ (t.runState ≠ .faulted → t.inpend = s.inpend)) ∧
    t.inputs ∈ [s.inputs, s.inputs.tail] ∧ t.irAtStart = (if t.runState = .waitInput then s.irAtStart else none) ∧
    (t.runState = .faulted ∨ t.runState = .waitInput → t.mem = s.mem ∧ t.pc = s.pc) ∧
    (t.runState ≠ .faulted → t.cause = s.cause)

/-- R36: the control-transfer group and WRITE write neither `ACC` nor memory; the branches emit nothing. -/
def Obligations.ControlAndOutputFrame : Prop :=
  ∀ (a : Nat) (i : Instr) (s t : State),
    i ∈ [.write a, .branch a, .branchneg a, .branchzero a, .halt a] → exec i s = .next t →
    (∀ b, t.cell b = s.cell b) ∧ t.mem = s.mem ∧ t.acc = s.acc ∧ t.ir = s.ir ∧ t.cfg = s.cfg ∧ t.inputs = s.inputs ∧
    t.hostq = s.hostq ∧ t.replies = s.replies ∧
    t.irAtStart = none ∧ (i ∈ [.branch a, .branchneg a, .branchzero a] → t.out = s.out) ∧
    (t.runState = .faulted → t.pc = s.pc ∧ t.out = s.out) ∧
    (t.runState ≠ .faulted → t.cause = s.cause ∧ t.inpend = s.inpend)

/-- R66, R125: what a waiting READ leaves alone when a line comes, from the host's queue or from the input source's
ready lines (the model's two ways for a line to come: log entry 6). -/
def Obligations.ResumedReadFrame : Prop :=
  ∀ (s t : State), s.runState = .waitInput → s.inpend = true →
    (s.hostq = [] ∨ ∃ line q, s.hostq = .inResp line :: q) → step s = .next t →
    (∀ b, b ≠ operandOf s.ir → t.cell b = s.cell b) ∧ t.acc = s.acc ∧ t.ir = s.ir ∧ t.cfg = s.cfg ∧ t.out = s.out ∧
    t.replies = s.replies ∧ t.hostq = s.hostq.tail ∧ t.inputs ∈ [s.inputs, s.inputs.tail] ∧
    (t.runState ≠ .waitInput → t.irAtStart = none) ∧
    (t.runState = .faulted → t.mem = s.mem ∧ t.pc = s.pc) ∧ (t.runState ≠ .faulted → t.cause = s.cause)

/-! ### The input handshake and the host's transactions -/

/-- R125: the request, the wait in which nothing happens, and the delivery that finishes the same step.  That the request
is made only when no line stands in `inputs` is log entry 6; that STEPs queued during the wait stay queued is R113
(decision D11, log entry 7); the three ends are R120 and R121 (decision D6). -/
def Obligations.InputHandshake : Prop :=
  (∀ (a : Nat) (s : State), s.inputs = [] →
    exec (.read a) s = .next { s with runState := .waitInput, inpend := true }) ∧
  (∀ s : State, s.runState = .waitInput → s.inputs = [] → (∀ e ∈ s.hostq, e = .step) → step s = .next s) ∧
  (∀ (s : State) (line : Line) (q : List HostEvent), s.runState = .waitInput → s.inpend = true →
    s.hostq = .inResp line :: q →
    (parseInt s.cfg line = none →
      step s = .next { s with
        hostq := q, irAtStart := none, runState := .faulted, cause := .invalidInput, inpend := false }) ∧
    (∀ v, parseInt s.cfg line = some v → s.cfg.cap ≤ operandOf s.ir →
      step s = .next { s with
        hostq := q, irAtStart := none, runState := .faulted, cause := .memoryRange, inpend := false }) ∧
    (∀ v, parseInt s.cfg line = some v → operandOf s.ir < s.cfg.cap →
      step s = .next { s with
        hostq := q, inpend := false, mem := s.mem.write (operandOf s.ir) v,
        pc := s.pc + 1, irAtStart := none, runState := stateAt s.cfg (s.pc + 1) }))

/-- R129 (decision D18): a line delivered with no request outstanding is discarded and nothing changes. -/
def Obligations.UnrequestedLineIgnored : Prop :=
  ∀ (s : State) (line : Line) (q : List HostEvent), s.inpend = false → s.hostq = .inResp line :: q →
    step s = .next { s with hostq := q }

/-- R113 (decision D11; log entry 7): STEP requests made while a READ waits stay pending, in order, and the line behind
them is the one the READ ends with: the transition is the one that takes the line first, but for the STEPs that stay.
What the READ then does with the line is `InputHandshake`. -/
def Obligations.PendingStepsWaitForTheRead : Prop :=
  ∀ (s : State) (n : Nat) (line : Line) (q : List HostEvent), s.runState = .waitInput → s.inpend = true →
    s.hostq = List.replicate n .step ++ .inResp line :: q →
    ∃ t, step { s with hostq := .inResp line :: q } = .next t ∧
      t.hostq = q ∧ t.inpend = false ∧ t.inputs = s.inputs ∧ t.runState ≠ .waitInput ∧
      step s = .next { t with hostq := List.replicate n .step ++ q }

/-- R113, R195, R205 (decisions D8, D11): in HALTED and FAULTED a STEP has no effect, and no transaction but RESET changes
a register. -/
def Obligations.HaltedAndFaultedLeftOnlyByReset : Prop :=
  ∀ (s : State), s.runState = .halted ∨ s.runState = .faulted → s.inpend = false →
    (StepIsNext s → step s = .next { s with hostq := s.hostq.tail }) ∧
    (∀ t, step s = .next t → s.hostq.head? ≠ some .reset →
      t.runState = s.runState ∧ t.cause = s.cause ∧ t.pc = s.pc ∧ t.acc = s.acc ∧ t.ir = s.ir ∧
      t.irAtStart = s.irAtStart ∧ t.inpend = false ∧ t.out = s.out)

/-- R220, R221, R197 (decisions D12, D14, D27, D28): RESET, in any STATE, gives the registers of R38 and touches neither
memory nor the output trace; a line delivered after it finds no request and is ignored (log entry 10). -/
def Obligations.ResetTransaction : Prop :=
  ∀ (s : State) (q : List HostEvent), s.hostq = .reset :: q →
    step s = .next { s with
      hostq := q, pc := 0, acc := 0, ir := 0, irAtStart := none, runState := .ready, cause := .none, inpend := false } ∧
    (∀ line q', q = .inResp line :: q' → ∃ t, step s = .next t ∧ step t = .next { t with hostq := q' })

/-- R38, R222, R27 (decisions D10, D12, D13, D27, D28): the power-on state at the default parameters of R8, every cell 0
and STATUS 0. -/
def Obligations.ResetState : Prop :=
  State.reset.cfg = { w := 64, cap := 250, bound := 250 } ∧ State.reset.pc = 0 ∧ State.reset.acc = 0 ∧
  State.reset.ir = 0 ∧ State.reset.irAtStart = none ∧ State.reset.status = 0x00#8 ∧ State.reset.inpend = false ∧
  State.reset.out = [] ∧ (∀ a, State.reset.cell a = 0) ∧ State.reset = core.reset

/-! ### Rules of the whole machine -/

/-- R9, R38: every machine built with well-formed parameters starts in the invariant. -/
def Obligations.PowerOnMeetsInvariant : Prop :=
  ∀ c : Config, c.wf → (State.powerOn c).Inv

/-- R21, R23, R24, R28, R29, R31, R32, R37: every transition keeps the invariant, and the parameters of R8 never change. -/
def Obligations.StepKeepsInvariant : Prop :=
  ∀ s t : State, s.Inv → step s = .next t → t.Inv ∧ t.cfg = s.cfg

/-- R14, R192, R55 (decision D21): a transition answers a next state in every state, except for a HostRead of a cell that
does not exist while no step is in progress (log entry 8); no instruction and no word stops the model.  A HostRead that
answers gives BUSY or the word, and changes nothing else. -/
def Obligations.StepStopsOnlyAtHostReadOutside : Prop :=
  ∀ s : State,
    ((∃ t, step s = .next t) ∨
      (∃ a q, s.hostq = .hostRead a :: q ∧ s.cfg.cap ≤ a ∧ s.inProgress = false ∧
        step s = .fault (.hostReadOutside a))) ∧
    (∀ a q, s.hostq = .hostRead a :: q →
      (s.inProgress = true → step s = .next { s with hostq := q, replies := s.replies ++ [.readBusy] }) ∧
      (s.inProgress = false → a < s.cfg.cap →
        step s = .next { s with hostq := q, replies := s.replies ++ [.word (s.cell a)] }) ∧
      (s.inProgress = false → s.cfg.cap ≤ a → step s = .fault (.hostReadOutside a)))

/-- R114 (decision D10), BUSY being passed inside a step: every change of STATE is one of the table's. -/
def Obligations.StateTransitions : Prop :=
  ∀ s t : State, s.Inv → step s = .next t →
    (t.runState = s.runState ∨
      (s.runState, t.runState) ∈ [(RunState.ready, RunState.waitInput), (.ready, .halted), (.ready, .faulted),
        (.waitInput, .ready), (.waitInput, .halted), (.waitInput, .faulted), (.halted, .ready), (.faulted, .ready)]) ∧
    (s.runState = .halted ∨ s.runState = .faulted → t.runState = .ready → s.hostq.head? = some .reset)

/-- R193, R110 (decision D8): a transition that enters FAULTED changed nothing but `IR`, STATUS and INPEND, beside at most
one transaction taken from the host's queue and one line taken from the input source; `IR` is the fetched word or
unchanged. -/
def Obligations.FaultsArePrecise : Prop :=
  ∀ s t : State, s.runState ≠ .faulted → step s = .next t → t.runState = .faulted →
    t = { s with ir := t.ir, irAtStart := none, runState := .faulted, cause := t.cause, inpend := false,
                 hostq := t.hostq, inputs := t.inputs } ∧
    t.cause ≠ .none ∧ (t.ir = s.ir ∨ t.ir = s.cell s.pc) ∧
    t.inputs ∈ [s.inputs, s.inputs.tail] ∧ QueueAfter s t.hostq

/-- R191 (decision D8): the faulting address is recovered from the state the fault leaves: it is the operand of the word
at `pc` for INVALID_ADDRESS and for a MEMORY_RANGE of a data access, and `pc` for a MEMORY_RANGE of the fetch.  The
opcode of an INVALID_INSTRUCTION is that of `IR`. -/
def Obligations.FaultAddressIsRecovered : Prop :=
  ∀ s t : State, s.Inv → s.runState ≠ .faulted → step s = .next t → t.runState = .faulted →
    (t.cause = .invalidAddress →
      t.faultAddress = some (operandOf (s.cell s.pc)) ∧ s.cfg.bound ≤ operandOf (s.cell s.pc)) ∧
    (t.cause = .memoryRange → s.cfg.cap ≤ s.pc → t.faultAddress = some s.pc ∧ t.ir = s.ir) ∧
    (t.cause = .memoryRange → s.pc < s.cfg.cap →
      t.faultAddress = some (operandOf (s.cell s.pc)) ∧
      s.cfg.cap ≤ operandOf (s.cell s.pc) ∧ operandOf (s.cell s.pc) < s.cfg.bound) ∧
    (t.cause = .invalidInstruction → opcodeOf t.ir = opcodeOf (s.cell s.pc) ∧
      opcodeOf t.ir ∉ [10, 11, 20, 21, 30, 31, 32, 33, 40, 41, 42, 43])

/-- R130, R133 (decision D29): a transition emits at most one line, of one of two kinds, and only a step from READY, by the
instruction it fetched (WRITE or HALT), emits it. -/
def Obligations.OutputLinesAreOfTwoKinds : Prop :=
  ∀ s t : State, step s = .next t →
    t.out = s.out ∨
    (s.runState = .ready ∧ t.ir = s.cell s.pc ∧
      ((opcodeOf t.ir = 11 ∧ t.out = s.out ++ ["Output: ".toList ++ dec (s.cell (operandOf t.ir))]) ∨
       (opcodeOf t.ir = 43 ∧ t.runState = .halted ∧ t.out = s.out ++ ["Program finished".toList])))

/-- R34, R36, R57: a cell changes only by the STORE or READ a step from READY fetched, by the READ that waits, each at its
operand, or by a program the host loads while no step is in progress. -/
def Obligations.MemoryWriters : Prop :=
  ∀ (s t : State) (b : Nat), s.Inv → step s = .next t → t.cell b ≠ s.cell b →
    (s.runState = .ready ∧ t.ir = s.cell s.pc ∧ opcodeOf t.ir ∈ [10, 21] ∧ b = operandOf t.ir ∧ b < s.cfg.cap) ∨
    (s.runState = .waitInput ∧ t.ir = s.ir ∧ opcodeOf t.ir = 10 ∧ b = operandOf t.ir ∧ b < s.cfg.cap) ∨
    (s.inProgress = false ∧ ∃ ls q, s.hostq = .loadProgram ls :: q)

/-- R21, R36: `ACC` changes only by the LOAD, ADD, SUBTRACT, DIVIDE or MULTIPLY a step from READY fetched, or by RESET. -/
def Obligations.AccumulatorWriters : Prop :=
  ∀ s t : State, step s = .next t → t.acc ≠ s.acc →
    (s.runState = .ready ∧ t.ir = s.cell s.pc ∧ opcodeOf t.ir ∈ [20, 30, 31, 32, 33]) ∨
    ∃ q, takeEvent s.inProgress s.hostq = some (.reset, q)

/-- R36: the one data cell an instruction reads is its operand's.  Replacing memory by another that agrees there changes
no other part of what the instruction does, and the operand's cell ends the same. -/
def Obligations.OnlyTheOperandCellIsRead : Prop :=
  ∀ (i : Instr) (s t : State) (m : Memory), s.mem.wf → m.wf → m.read i.operand = s.cell i.operand →
    exec i s = .next t →
    ∃ t', exec i { s with mem := m } = .next t' ∧ { t' with mem := t.mem } = t ∧
      t'.cell i.operand = t.cell i.operand ∧ (∀ b, b ≠ i.operand → t'.cell b = m.read b)

/-- R144: LOAD `x` then STORE `y` copies the word. -/
def Obligations.CopyLaw : Prop :=
  ∀ (s : State) (x y : Nat), s.mem.wf → s.hostq = [] → s.runState = .ready →
    s.pc + 1 < s.cfg.bound → s.pc + 1 < s.cfg.cap → x ≤ 999 → y ≤ 999 →
    x < s.cfg.bound → x < s.cfg.cap → y < s.cfg.bound → y < s.cfg.cap →
    s.cell s.pc = encode (.load x) → s.cell (s.pc + 1) = encode (.store y) →
    ∃ t u, step s = .next t ∧ step t = .next u ∧ u.cell y = s.cell x ∧ u.acc = s.cell x ∧ u.pc = s.pc + 2

/-- R177 (decision D19): a conditional branch that is not taken is executed again at every later step, with no change of
state after the first. -/
def Obligations.NotTakenBranchRepeatsForever : Prop :=
  ∀ (s : State) (w : Word) (o a : Nat), Fetches s w → s.hostq = [] → HasFields w o a → s.pc < s.cfg.bound →
    a < s.cfg.bound → (o = 41 ∧ 0 ≤ s.acc ∨ o = 42 ∧ s.acc ≠ 0) →
    ∀ k, core.run (k + 1) s = .next { s with ir := w, irAtStart := none }

/-- R64, R231: the word a STORE writes is the word the next fetch of that address takes, with nothing between. -/
def Obligations.StoredWordIsFetched : Prop :=
  ∀ (s t : State) (w : Word), s.mem.wf → Fetches s w → s.hostq = [] → HasFields w 21 (s.pc + 1) →
    s.pc + 1 < s.cfg.bound → s.pc + 1 < s.cfg.cap → step s = .next t → Fetches t s.acc

/-! ### Encoding -/

/-- R75, R80, R93, R74: decoding the canonical word of a well-formed instruction, with either sign, gives it back. -/
def Obligations.EncodeThenDecode : Prop :=
  ∀ i : Instr, i.WellFormed → decode (encode i) = .instr i ∧ decode (-(encode i)) = .instr i

/-- R80, R74: a word that decodes to `i` is the canonical word of `i` or its negative, and `i` is well formed. -/
def Obligations.DecodeThenEncode : Prop :=
  ∀ (w : Word) (i : Instr), decode w = .instr i → i.WellFormed ∧ (w = encode i ∨ w = -(encode i))

/-- R80: the opcode map, row by row, and its complement (R81). -/
def Obligations.OpcodeMap : Prop :=
  ∀ (w : Word) (o a : Nat), HasFields w o a →
    (decode w = .instr (.read a) ↔ o = 10) ∧ (decode w = .instr (.write a) ↔ o = 11) ∧
    (decode w = .instr (.load a) ↔ o = 20) ∧ (decode w = .instr (.store a) ↔ o = 21) ∧
    (decode w = .instr (.add a) ↔ o = 30) ∧ (decode w = .instr (.subtract a) ↔ o = 31) ∧
    (decode w = .instr (.divide a) ↔ o = 32) ∧ (decode w = .instr (.multiply a) ↔ o = 33) ∧
    (decode w = .instr (.branch a) ↔ o = 40) ∧ (decode w = .instr (.branchneg a) ↔ o = 41) ∧
    (decode w = .instr (.branchzero a) ↔ o = 42) ∧ (decode w = .instr (.halt a) ↔ o = 43) ∧
    (decode w = .undefinedOpcode o ↔ o ∉ [10, 11, 20, 21, 30, 31, 32, 33, 40, 41, 42, 43])

/-- R80, R74, R82: words of the canonical-word column, one per family, a negative one and an invalid one. -/
def Obligations.SpecWordsDecode : Prop :=
  decode 10007 = .instr (.read 7) ∧ decode (-10007) = .instr (.read 7) ∧ decode 20249 = .instr (.load 249) ∧
  decode 33034 = .instr (.multiply 34) ∧ decode 41020 = .instr (.branchneg 20) ∧ decode 43000 = .instr (.halt 0) ∧
  decode 1234567 = .undefinedOpcode 1234

/-! ### The loader -/

/-- R93, R88: the compact and the extended line of one opcode and operand load to the same canonical word. -/
def Obligations.CompactAndExtendedLinesAgree : Prop :=
  ∀ o a : Nat, o ≤ 99 → a ≤ 99 →
    lineWord (line4 o a) = (o * 1000 + a : Nat) ∧ lineWord (line6 o a) = (o * 1000 + a : Nat) ∧
    lineWord ('-' :: line4 o a) = -((o * 1000 + a : Nat) : Int)

/-- R91: the four-digit line is recovered from its word, sign and all, except that the sign of zero is lost. -/
def Obligations.FourDigitLineIsRecovered : Prop :=
  ∀ o a : Nat, o ≤ 99 → a ≤ 99 →
    unload4 (lineWord (line4 o a)) = line4 o a ∧
    (o ≠ 0 ∨ a ≠ 0 → unload4 (lineWord ('-' :: line4 o a)) = '-' :: line4 o a) ∧
    (o = 0 ∧ a = 0 → unload4 (lineWord ('-' :: line4 o a)) = line4 o a)

/-- R91, R84, R57 (the 0 past the image is decision D13): loading the six-digit lines of any image that fits, then reading cell by cell, gives the image back,
and 0 in every cell past it; nothing but memory and the reply changes (R225). -/
def Obligations.SixDigitLoadReadsBack : Prop :=
  ∀ (s : State) (ws : List Word) (q : List HostEvent), (∀ v ∈ ws, v.natAbs ≤ 999999) → ws.length ≤ s.cfg.cap →
    s.inProgress = false → s.hostq = .loadProgram (ws.map unload6) :: q →
    ∃ t, step s = .next t ∧ (∀ i, i < s.cfg.cap → t.cell i = ws.getD i 0) ∧
      t = { s with hostq := q, mem := t.mem, replies := s.replies ++ [.load .ok] }

/-- R89, R90, R55, R225 (decisions D13, D21): a load either writes its whole image, or answers one error code and writes
nothing.  The code is BUSY exactly while a step is in progress (log entry 9); else it is IMAGE_TOO_LARGE for more lines
than CAP, the first failing check of the first line that fails one, and OK where none does. -/
def Obligations.LoadIsAllOrNothing : Prop :=
  ∀ (s : State) (ls : List Line) (q : List HostEvent), s.hostq = .loadProgram ls :: q →
    ∃ t code, step s = .next t ∧ t = { s with hostq := q, mem := t.mem, replies := s.replies ++ [.load code] } ∧
      (code = .ok → ∀ i, i < s.cfg.cap → t.cell i = (ls.map lineWord).getD i 0) ∧
      (code ≠ .ok → t.mem = s.mem) ∧ (code = .busy ↔ s.inProgress = true) ∧
      (s.inProgress = false → s.cfg.cap < ls.length → code = .imageTooLarge) ∧
      (s.inProgress = false → ls.length ≤ s.cfg.cap →
        ((∀ l ∈ ls, LineGood ls l) → code = .ok) ∧
        (∀ before l after, ls = before ++ l :: after → (∀ k ∈ before, LineGood ls k) →
          (¬ LineNumeric l → code = .notNumeric) ∧
          (LineNumeric l → ¬ LineLength l → code = .badLength) ∧
          (LineNumeric l → LineLength l → ¬ LineMatches ls l → code = .lengthMismatch)))

/-- R85, R86, R87, R89: the checks accept exactly the programs that fit and whose lines are all numeric with four digits
each, or all numeric with six. -/
def Obligations.LoaderAcceptsUniformLines : Prop :=
  ∀ (cap : Nat) (ls : List Line),
    checkProgram cap ls = .ok ↔
      ls.length ≤ cap ∧ ∃ n, (n = 4 ∨ n = 6) ∧ ∀ l ∈ ls, (coreOf l).length = n ∧ ∀ c ∈ coreOf l, isDigit c = true

/-! ### Text -/

/-- R127 (decision D15): ParseInt gives `v` exactly for the lines of the grammar whose value is `v`, in range. -/
def Obligations.ParseIsTheGrammar : Prop :=
  ∀ (c : Config) (line : Line) (v : Word),
    parseInt c line = some v ↔
      ∃ (pre sign digits post : Line),
        line = pre ++ sign ++ digits ++ post ∧ (∀ x ∈ pre, x = ' ' ∨ x = '\t') ∧ (∀ x ∈ post, x = ' ' ∨ x = '\t') ∧
        sign ∈ [[], ['+'], ['-']] ∧ digits ≠ [] ∧ (∀ x ∈ digits, isDigit x = true) ∧
        v = (if sign = ['-'] then -(digitsValue digits : Int) else (digitsValue digits : Int)) ∧ InRange c v

/-- R127, R131 (decisions D15, D16): the text WRITE gives a word is text READ takes for the same word. -/
def Obligations.ParseOfRenderedWord : Prop :=
  ∀ (c : Config) (v : Word), InRange c v → parseInt c (dec v) = some v

/-- R131 (decision D16): the rendering has only digits after the sign, no leading zero but in `0`, and their value is the
magnitude. -/
def Obligations.RenderingIsCanonical : Prop :=
  ∀ v : Int, ∃ digits : Line,
    dec v = (if v < 0 then '-' :: digits else digits) ∧ digits ≠ [] ∧ (∀ x ∈ digits, isDigit x = true) ∧
    digitsValue digits = v.natAbs ∧ (digits.head? = some '0' → digits = ['0'] ∧ v = 0)

/-! ### Numbers, STATUS and memory as data -/

/-- R151, R156 (decision D3): the quotient is truncated toward zero, and of two words in range it leaves the range only
for the least word divided by -1. -/
def Obligations.DivisionTruncatesAndOverflowsOnce : Prop :=
  ∀ (c : Config) (x y : Int), c.wf → y ≠ 0 →
    tdiv x y = x.tdiv y ∧ (tdiv x y).natAbs = x.natAbs / y.natAbs ∧
    (InRange c x → InRange c y → (¬ InRange c (tdiv x y) ↔ x = wordMin c ∧ y = -1))

/-- R11, R54, R21 (decision D26): the words in range are exactly those that the `W` stored bits give back. -/
def Obligations.StoredBitsGiveTheWordBack : Prop :=
  ∀ (c : Config) (v : Word), c.wf → (Word.ofBits (Word.toBits c.w v) = v ↔ InRange c v)

/-- R27, R26, R28 (decisions D9, D10): the fields of STATUS and the codes of every STATE and CAUSE between steps; and what
the host reads (R32, decision D31): a register read changes nothing but the reply, and one made while a READ waits gives
`pc`, `ACC` and `IR` as they were when the READ's step started, with WAIT_INPUT in STATUS (R29, log entry 15). -/
def Obligations.StatusFields : Prop :=
  (∀ s : State,
    s.status.extractLsb' 3 1 = 0#1 ∧ s.status.extractLsb' 4 4 = s.cause.code ∧
    s.status.extractLsb' 0 3 = s.runState.code ∧
    (s.Inv → (s.status.toNat = 0x00 ↔ s.runState = .ready) ∧ (s.status.toNat = 0x02 ↔ s.runState = .waitInput) ∧
      (s.status.toNat = 0x03 ↔ s.runState = .halted) ∧
      (s.status.toNat = 0x14 ↔ s.runState = .faulted ∧ s.cause = .invalidAddress) ∧
      (s.status.toNat = 0x24 ↔ s.runState = .faulted ∧ s.cause = .invalidInstruction) ∧
      (s.status.toNat = 0x34 ↔ s.runState = .faulted ∧ s.cause = .invalidInput) ∧
      (s.status.toNat = 0x44 ↔ s.runState = .faulted ∧ s.cause = .divideByZero) ∧
      (s.status.toNat = 0x54 ↔ s.runState = .faulted ∧ s.cause = .overflow) ∧
      (s.status.toNat = 0x64 ↔ s.runState = .faulted ∧ s.cause = .memoryRange))) ∧
  (∀ (s : State) (q : List HostEvent), s.hostq = .readRegs :: q →
    step s = .next { s with hostq := q, replies := s.replies ++ [.regs s.pc s.acc s.irSeen s.status] } ∧
    (s.Inv → s.inProgress = false → s.irSeen = s.ir)) ∧
  (∀ (s : State) (w : Word) (a : Nat) (q : List HostEvent), s.Inv → Fetches s w → HasFields w 10 a →
    a < s.cfg.bound → s.inputs = [] → s.hostq = .step :: .readRegs :: q →
    ∃ t u, step s = .next t ∧ step t = .next u ∧
      u = { t with hostq := q, replies := s.replies ++ [.regs s.pc s.acc s.ir 0x02#8] })

/-- R52, R57 (decision D13 for the power-on value): after any history of writes a read gives the last word written to the
cell, or 0 if there was none, and memory stays in its canonical form. -/
def Obligations.ReadReturnsLastWrite : Prop :=
  ∀ (writes : List (Nat × Word)) (a : Nat),
    (writes.foldl (fun m w => Memory.write m w.1 w.2) []).read a =
      ((writes.reverse.find? (fun w => w.1 == a)).map Prod.snd).getD 0 ∧
    Memory.wf (writes.foldl (fun m w => Memory.write m w.1 w.2) [])

/-- The canonical form (log entry 3): memories that read the same at every address are equal data. -/
def Obligations.CanonicalMemoryIsUnique : Prop :=
  ∀ m n : Memory, m.wf → n.wf → (∀ a, m.read a = n.read a) → m = n
end

