-- ==== Sys2Proof/Laws/Decode.lean ====
section
/-! SUPPORT. The decoder by its fields, and the canonical word by its fields. -/

namespace Sys2Proof

/-- What the opcode map gives, and for which opcodes. -/
theorem decodeFields_instr {op a : Nat} {i : Instr} (h : decodeFields op a = .instr i) :
    i.opcode = op ∧ i.operand = a := by
  unfold decodeFields at h
  split at h <;> cases h <;> exact ⟨rfl, rfl⟩

/-- The opcode map on the opcode of an instruction is that instruction. -/
theorem decodeFields_opcode (i : Instr) : decodeFields i.opcode i.operand = .instr i := by
  cases i <;> rfl

/-- The opcodes the map rejects. -/
theorem decodeFields_undefined {op a n : Nat} (h : decodeFields op a = .undefinedOpcode n) :
    n = op ∧ op ∉ [10, 11, 20, 21, 30, 31, 32, 33, 40, 41, 42, 43] := by
  unfold decodeFields at h
  split at h <;> cases h
  refine ⟨rfl, ?_⟩
  simp only [List.mem_cons, List.not_mem_nil, or_false, not_or]
  refine ⟨?_, ?_, ?_, ?_, ?_, ?_, ?_, ?_, ?_, ?_, ?_, ?_⟩ <;> assumption

theorem decodeFields_of_not_mem {op a : Nat}
    (h : op ∉ [10, 11, 20, 21, 30, 31, 32, 33, 40, 41, 42, 43]) :
    decodeFields op a = .undefinedOpcode op := by
  cases hd : decodeFields op a with
  | undefinedOpcode n => rw [(decodeFields_undefined hd).1]
  | instr i =>
    obtain ⟨rfl, -⟩ := decodeFields_instr hd
    exact absurd (by cases i <;> simp [Instr.opcode]) h

/-- R75 on a word given by its fields. -/
theorem opcodeOf_fields {w : Word} {o a : Nat} (h : Machine.HasFields w o a) : opcodeOf w = o := by
  obtain ⟨h1, h2⟩ := h
  unfold opcodeOf
  omega

theorem operandOf_fields {w : Word} {o a : Nat} (h : Machine.HasFields w o a) : operandOf w = a := by
  obtain ⟨h1, h2⟩ := h
  unfold operandOf
  omega

theorem decode_fields {w : Word} {o a : Nat} (h : Machine.HasFields w o a) : decode w = decodeFields o a := by
  rw [decode, opcodeOf_fields h, operandOf_fields h]

/-- A decoded instruction carries the word's two fields, and no operand above 999. -/
theorem decode_instr {w : Word} {i : Instr} (h : decode w = .instr i) :
    i.opcode = opcodeOf w ∧ i.operand = operandOf w ∧ i.operand ≤ 999 := by
  obtain ⟨h1, h2⟩ := decodeFields_instr h
  refine ⟨h1, h2, ?_⟩
  rw [h2]
  unfold operandOf
  omega

/-- The canonical word of R93 has the fields it was made from. -/
theorem hasFields_enc {o a : Nat} (h : a ≤ 999) : Machine.HasFields (enc o a) o a :=
  ⟨by simp only [enc, Int.natAbs_natCast]; omega, h⟩

end Sys2Proof
end

