-- ==== Sys2Proof/Laws/State.lean ====
section
/-! SUPPORT. One lemma per field per update of State, each true by unfolding the update once, so that no later proof
unfolds one. -/

namespace Sys2Proof.Machine

variable (s : State)


@[simp] theorem State.setAcc_cfg (v : Word) : (s.setAcc v).cfg = s.cfg := rfl
@[simp] theorem State.setAcc_pc (v : Word) : (s.setAcc v).pc = s.pc := rfl
@[simp] theorem State.setAcc_acc (v : Word) : (s.setAcc v).acc = v := rfl
@[simp] theorem State.setAcc_ir (v : Word) : (s.setAcc v).ir = s.ir := rfl
@[simp] theorem State.setAcc_irAtStart (v : Word) : (s.setAcc v).irAtStart = s.irAtStart := rfl
@[simp] theorem State.setAcc_runState (v : Word) : (s.setAcc v).runState = s.runState := rfl
@[simp] theorem State.setAcc_cause (v : Word) : (s.setAcc v).cause = s.cause := rfl
@[simp] theorem State.setAcc_inpend (v : Word) : (s.setAcc v).inpend = s.inpend := rfl
@[simp] theorem State.setAcc_mem (v : Word) : (s.setAcc v).mem = s.mem := rfl
@[simp] theorem State.setAcc_out (v : Word) : (s.setAcc v).out = s.out := rfl
@[simp] theorem State.setAcc_inputs (v : Word) : (s.setAcc v).inputs = s.inputs := rfl
@[simp] theorem State.setAcc_hostq (v : Word) : (s.setAcc v).hostq = s.hostq := rfl
@[simp] theorem State.setAcc_replies (v : Word) : (s.setAcc v).replies = s.replies := rfl

@[simp] theorem State.setCell_cfg (a : Nat) (v : Word) : (s.setCell a v).cfg = s.cfg := rfl
@[simp] theorem State.setCell_pc (a : Nat) (v : Word) : (s.setCell a v).pc = s.pc := rfl
@[simp] theorem State.setCell_acc (a : Nat) (v : Word) : (s.setCell a v).acc = s.acc := rfl
@[simp] theorem State.setCell_ir (a : Nat) (v : Word) : (s.setCell a v).ir = s.ir := rfl
@[simp] theorem State.setCell_irAtStart (a : Nat) (v : Word) : (s.setCell a v).irAtStart = s.irAtStart := rfl
@[simp] theorem State.setCell_runState (a : Nat) (v : Word) : (s.setCell a v).runState = s.runState := rfl
@[simp] theorem State.setCell_cause (a : Nat) (v : Word) : (s.setCell a v).cause = s.cause := rfl
@[simp] theorem State.setCell_inpend (a : Nat) (v : Word) : (s.setCell a v).inpend = s.inpend := rfl
@[simp] theorem State.setCell_mem (a : Nat) (v : Word) : (s.setCell a v).mem = s.mem.write a v := rfl
@[simp] theorem State.setCell_out (a : Nat) (v : Word) : (s.setCell a v).out = s.out := rfl
@[simp] theorem State.setCell_inputs (a : Nat) (v : Word) : (s.setCell a v).inputs = s.inputs := rfl
@[simp] theorem State.setCell_hostq (a : Nat) (v : Word) : (s.setCell a v).hostq = s.hostq := rfl
@[simp] theorem State.setCell_replies (a : Nat) (v : Word) : (s.setCell a v).replies = s.replies := rfl

@[simp] theorem State.emit_cfg (l : Line) : (s.emit l).cfg = s.cfg := rfl
@[simp] theorem State.emit_pc (l : Line) : (s.emit l).pc = s.pc := rfl
@[simp] theorem State.emit_acc (l : Line) : (s.emit l).acc = s.acc := rfl
@[simp] theorem State.emit_ir (l : Line) : (s.emit l).ir = s.ir := rfl
@[simp] theorem State.emit_irAtStart (l : Line) : (s.emit l).irAtStart = s.irAtStart := rfl
@[simp] theorem State.emit_runState (l : Line) : (s.emit l).runState = s.runState := rfl
@[simp] theorem State.emit_cause (l : Line) : (s.emit l).cause = s.cause := rfl
@[simp] theorem State.emit_inpend (l : Line) : (s.emit l).inpend = s.inpend := rfl
@[simp] theorem State.emit_mem (l : Line) : (s.emit l).mem = s.mem := rfl
@[simp] theorem State.emit_out (l : Line) : (s.emit l).out = s.out ++ [l] := rfl
@[simp] theorem State.emit_inputs (l : Line) : (s.emit l).inputs = s.inputs := rfl
@[simp] theorem State.emit_hostq (l : Line) : (s.emit l).hostq = s.hostq := rfl
@[simp] theorem State.emit_replies (l : Line) : (s.emit l).replies = s.replies := rfl

@[simp] theorem State.reply_cfg (r : HostReply) : (s.reply r).cfg = s.cfg := rfl
@[simp] theorem State.reply_pc (r : HostReply) : (s.reply r).pc = s.pc := rfl
@[simp] theorem State.reply_acc (r : HostReply) : (s.reply r).acc = s.acc := rfl
@[simp] theorem State.reply_ir (r : HostReply) : (s.reply r).ir = s.ir := rfl
@[simp] theorem State.reply_irAtStart (r : HostReply) : (s.reply r).irAtStart = s.irAtStart := rfl
@[simp] theorem State.reply_runState (r : HostReply) : (s.reply r).runState = s.runState := rfl
@[simp] theorem State.reply_cause (r : HostReply) : (s.reply r).cause = s.cause := rfl
@[simp] theorem State.reply_inpend (r : HostReply) : (s.reply r).inpend = s.inpend := rfl
@[simp] theorem State.reply_mem (r : HostReply) : (s.reply r).mem = s.mem := rfl
@[simp] theorem State.reply_out (r : HostReply) : (s.reply r).out = s.out := rfl
@[simp] theorem State.reply_inputs (r : HostReply) : (s.reply r).inputs = s.inputs := rfl
@[simp] theorem State.reply_hostq (r : HostReply) : (s.reply r).hostq = s.hostq := rfl
@[simp] theorem State.reply_replies (r : HostReply) : (s.reply r).replies = s.replies ++ [r] := rfl

@[simp] theorem State.setHostq_cfg (q : List HostEvent) : (s.setHostq q).cfg = s.cfg := rfl
@[simp] theorem State.setHostq_pc (q : List HostEvent) : (s.setHostq q).pc = s.pc := rfl
@[simp] theorem State.setHostq_acc (q : List HostEvent) : (s.setHostq q).acc = s.acc := rfl
@[simp] theorem State.setHostq_ir (q : List HostEvent) : (s.setHostq q).ir = s.ir := rfl
@[simp] theorem State.setHostq_irAtStart (q : List HostEvent) : (s.setHostq q).irAtStart = s.irAtStart := rfl
@[simp] theorem State.setHostq_runState (q : List HostEvent) : (s.setHostq q).runState = s.runState := rfl
@[simp] theorem State.setHostq_cause (q : List HostEvent) : (s.setHostq q).cause = s.cause := rfl
@[simp] theorem State.setHostq_inpend (q : List HostEvent) : (s.setHostq q).inpend = s.inpend := rfl
@[simp] theorem State.setHostq_mem (q : List HostEvent) : (s.setHostq q).mem = s.mem := rfl
@[simp] theorem State.setHostq_out (q : List HostEvent) : (s.setHostq q).out = s.out := rfl
@[simp] theorem State.setHostq_inputs (q : List HostEvent) : (s.setHostq q).inputs = s.inputs := rfl
@[simp] theorem State.setHostq_hostq (q : List HostEvent) : (s.setHostq q).hostq = q := rfl
@[simp] theorem State.setHostq_replies (q : List HostEvent) : (s.setHostq q).replies = s.replies := rfl

@[simp] theorem State.setInputs_cfg (ls : List Line) : (s.setInputs ls).cfg = s.cfg := rfl
@[simp] theorem State.setInputs_pc (ls : List Line) : (s.setInputs ls).pc = s.pc := rfl
@[simp] theorem State.setInputs_acc (ls : List Line) : (s.setInputs ls).acc = s.acc := rfl
@[simp] theorem State.setInputs_ir (ls : List Line) : (s.setInputs ls).ir = s.ir := rfl
@[simp] theorem State.setInputs_irAtStart (ls : List Line) : (s.setInputs ls).irAtStart = s.irAtStart := rfl
@[simp] theorem State.setInputs_runState (ls : List Line) : (s.setInputs ls).runState = s.runState := rfl
@[simp] theorem State.setInputs_cause (ls : List Line) : (s.setInputs ls).cause = s.cause := rfl
@[simp] theorem State.setInputs_inpend (ls : List Line) : (s.setInputs ls).inpend = s.inpend := rfl
@[simp] theorem State.setInputs_mem (ls : List Line) : (s.setInputs ls).mem = s.mem := rfl
@[simp] theorem State.setInputs_out (ls : List Line) : (s.setInputs ls).out = s.out := rfl
@[simp] theorem State.setInputs_inputs (ls : List Line) : (s.setInputs ls).inputs = ls := rfl
@[simp] theorem State.setInputs_hostq (ls : List Line) : (s.setInputs ls).hostq = s.hostq := rfl
@[simp] theorem State.setInputs_replies (ls : List Line) : (s.setInputs ls).replies = s.replies := rfl

@[simp] theorem State.beginStep_cfg : (s.beginStep).cfg = s.cfg := rfl
@[simp] theorem State.beginStep_pc : (s.beginStep).pc = s.pc := rfl
@[simp] theorem State.beginStep_acc : (s.beginStep).acc = s.acc := rfl
@[simp] theorem State.beginStep_ir : (s.beginStep).ir = s.ir := rfl
@[simp] theorem State.beginStep_irAtStart : (s.beginStep).irAtStart = some s.ir := rfl
@[simp] theorem State.beginStep_runState : (s.beginStep).runState = .busy := rfl
@[simp] theorem State.beginStep_cause : (s.beginStep).cause = s.cause := rfl
@[simp] theorem State.beginStep_inpend : (s.beginStep).inpend = s.inpend := rfl
@[simp] theorem State.beginStep_mem : (s.beginStep).mem = s.mem := rfl
@[simp] theorem State.beginStep_out : (s.beginStep).out = s.out := rfl
@[simp] theorem State.beginStep_inputs : (s.beginStep).inputs = s.inputs := rfl
@[simp] theorem State.beginStep_hostq : (s.beginStep).hostq = s.hostq := rfl
@[simp] theorem State.beginStep_replies : (s.beginStep).replies = s.replies := rfl

@[simp] theorem State.setIr_cfg (w : Word) : (s.setIr w).cfg = s.cfg := rfl
@[simp] theorem State.setIr_pc (w : Word) : (s.setIr w).pc = s.pc := rfl
@[simp] theorem State.setIr_acc (w : Word) : (s.setIr w).acc = s.acc := rfl
@[simp] theorem State.setIr_ir (w : Word) : (s.setIr w).ir = w := rfl
@[simp] theorem State.setIr_irAtStart (w : Word) : (s.setIr w).irAtStart = s.irAtStart := rfl
@[simp] theorem State.setIr_runState (w : Word) : (s.setIr w).runState = s.runState := rfl
@[simp] theorem State.setIr_cause (w : Word) : (s.setIr w).cause = s.cause := rfl
@[simp] theorem State.setIr_inpend (w : Word) : (s.setIr w).inpend = s.inpend := rfl
@[simp] theorem State.setIr_mem (w : Word) : (s.setIr w).mem = s.mem := rfl
@[simp] theorem State.setIr_out (w : Word) : (s.setIr w).out = s.out := rfl
@[simp] theorem State.setIr_inputs (w : Word) : (s.setIr w).inputs = s.inputs := rfl
@[simp] theorem State.setIr_hostq (w : Word) : (s.setIr w).hostq = s.hostq := rfl
@[simp] theorem State.setIr_replies (w : Word) : (s.setIr w).replies = s.replies := rfl

@[simp] theorem State.commit_cfg (n : Nat) : (s.commit n).cfg = s.cfg := rfl
@[simp] theorem State.commit_pc (n : Nat) : (s.commit n).pc = n := rfl
@[simp] theorem State.commit_acc (n : Nat) : (s.commit n).acc = s.acc := rfl
@[simp] theorem State.commit_ir (n : Nat) : (s.commit n).ir = s.ir := rfl
@[simp] theorem State.commit_irAtStart (n : Nat) : (s.commit n).irAtStart = none := rfl
@[simp] theorem State.commit_runState (n : Nat) : (s.commit n).runState = if n = s.cfg.bound then .halted else .ready := rfl
@[simp] theorem State.commit_cause (n : Nat) : (s.commit n).cause = s.cause := rfl
@[simp] theorem State.commit_inpend (n : Nat) : (s.commit n).inpend = s.inpend := rfl
@[simp] theorem State.commit_mem (n : Nat) : (s.commit n).mem = s.mem := rfl
@[simp] theorem State.commit_out (n : Nat) : (s.commit n).out = s.out := rfl
@[simp] theorem State.commit_inputs (n : Nat) : (s.commit n).inputs = s.inputs := rfl
@[simp] theorem State.commit_hostq (n : Nat) : (s.commit n).hostq = s.hostq := rfl
@[simp] theorem State.commit_replies (n : Nat) : (s.commit n).replies = s.replies := rfl

@[simp] theorem State.enterFault_cfg (c : Cause) : (s.enterFault c).cfg = s.cfg := rfl
@[simp] theorem State.enterFault_pc (c : Cause) : (s.enterFault c).pc = s.pc := rfl
@[simp] theorem State.enterFault_acc (c : Cause) : (s.enterFault c).acc = s.acc := rfl
@[simp] theorem State.enterFault_ir (c : Cause) : (s.enterFault c).ir = s.ir := rfl
@[simp] theorem State.enterFault_irAtStart (c : Cause) : (s.enterFault c).irAtStart = none := rfl
@[simp] theorem State.enterFault_runState (c : Cause) : (s.enterFault c).runState = .faulted := rfl
@[simp] theorem State.enterFault_cause (c : Cause) : (s.enterFault c).cause = c := rfl
@[simp] theorem State.enterFault_inpend (c : Cause) : (s.enterFault c).inpend = false := rfl
@[simp] theorem State.enterFault_mem (c : Cause) : (s.enterFault c).mem = s.mem := rfl
@[simp] theorem State.enterFault_out (c : Cause) : (s.enterFault c).out = s.out := rfl
@[simp] theorem State.enterFault_inputs (c : Cause) : (s.enterFault c).inputs = s.inputs := rfl
@[simp] theorem State.enterFault_hostq (c : Cause) : (s.enterFault c).hostq = s.hostq := rfl
@[simp] theorem State.enterFault_replies (c : Cause) : (s.enterFault c).replies = s.replies := rfl

@[simp] theorem State.resetCore_cfg : (s.resetCore).cfg = s.cfg := rfl
@[simp] theorem State.resetCore_pc : (s.resetCore).pc = 0 := rfl
@[simp] theorem State.resetCore_acc : (s.resetCore).acc = 0 := rfl
@[simp] theorem State.resetCore_ir : (s.resetCore).ir = 0 := rfl
@[simp] theorem State.resetCore_irAtStart : (s.resetCore).irAtStart = none := rfl
@[simp] theorem State.resetCore_runState : (s.resetCore).runState = .ready := rfl
@[simp] theorem State.resetCore_cause : (s.resetCore).cause = .none := rfl
@[simp] theorem State.resetCore_inpend : (s.resetCore).inpend = false := rfl
@[simp] theorem State.resetCore_mem : (s.resetCore).mem = s.mem := rfl
@[simp] theorem State.resetCore_out : (s.resetCore).out = s.out := rfl
@[simp] theorem State.resetCore_inputs : (s.resetCore).inputs = s.inputs := rfl
@[simp] theorem State.resetCore_hostq : (s.resetCore).hostq = s.hostq := rfl
@[simp] theorem State.resetCore_replies : (s.resetCore).replies = s.replies := rfl

@[simp] theorem State.requestInput_cfg : (s.requestInput).cfg = s.cfg := rfl
@[simp] theorem State.requestInput_pc : (s.requestInput).pc = s.pc := rfl
@[simp] theorem State.requestInput_acc : (s.requestInput).acc = s.acc := rfl
@[simp] theorem State.requestInput_ir : (s.requestInput).ir = s.ir := rfl
@[simp] theorem State.requestInput_irAtStart : (s.requestInput).irAtStart = s.irAtStart := rfl
@[simp] theorem State.requestInput_runState : (s.requestInput).runState = .waitInput := rfl
@[simp] theorem State.requestInput_cause : (s.requestInput).cause = s.cause := rfl
@[simp] theorem State.requestInput_inpend : (s.requestInput).inpend = true := rfl
@[simp] theorem State.requestInput_mem : (s.requestInput).mem = s.mem := rfl
@[simp] theorem State.requestInput_out : (s.requestInput).out = s.out := rfl
@[simp] theorem State.requestInput_inputs : (s.requestInput).inputs = s.inputs := rfl
@[simp] theorem State.requestInput_hostq : (s.requestInput).hostq = s.hostq := rfl
@[simp] theorem State.requestInput_replies : (s.requestInput).replies = s.replies := rfl

@[simp] theorem State.acceptInput_cfg : (s.acceptInput).cfg = s.cfg := rfl
@[simp] theorem State.acceptInput_pc : (s.acceptInput).pc = s.pc := rfl
@[simp] theorem State.acceptInput_acc : (s.acceptInput).acc = s.acc := rfl
@[simp] theorem State.acceptInput_ir : (s.acceptInput).ir = s.ir := rfl
@[simp] theorem State.acceptInput_irAtStart : (s.acceptInput).irAtStart = s.irAtStart := rfl
@[simp] theorem State.acceptInput_runState : (s.acceptInput).runState = .busy := rfl
@[simp] theorem State.acceptInput_cause : (s.acceptInput).cause = s.cause := rfl
@[simp] theorem State.acceptInput_inpend : (s.acceptInput).inpend = false := rfl
@[simp] theorem State.acceptInput_mem : (s.acceptInput).mem = s.mem := rfl
@[simp] theorem State.acceptInput_out : (s.acceptInput).out = s.out := rfl
@[simp] theorem State.acceptInput_inputs : (s.acceptInput).inputs = s.inputs := rfl
@[simp] theorem State.acceptInput_hostq : (s.acceptInput).hostq = s.hostq := rfl
@[simp] theorem State.acceptInput_replies : (s.acceptInput).replies = s.replies := rfl

@[simp] theorem State.commitSeq_eq : s.commitSeq = s.commit (s.pc + 1) := rfl

@[simp] theorem State.cell_eq (a : Nat) : s.cell a = s.mem.read a := rfl

@[simp] theorem State.irSeen_eq : s.irSeen = s.irAtStart.getD s.ir := rfl

@[simp] theorem stateAt_eq (c : Config) (n : Nat) :
    stateAt c n = if n = c.bound then .halted else .ready := rfl

end Sys2Proof.Machine
end

