-- ==== Sys2Proof/Laws/Memory.lean ====
section
/-! SUPPORT. What the memory operations do: a read after a write (R52), and that each operation keeps the canonical
form. -/

namespace Sys2Proof.Machine

/-- An address below every listed one reads as 0. -/
theorem Memory.read_of_lt_all {m : Memory} {a : Nat} (h : ∀ c ∈ m, a < c.1) : Memory.read m a = 0 := by
  induction m with
  | nil => rfl
  | cons c m ih =>
    have hc := h c (by simp)
    have : c.1 ≠ a := by omega
    simp only [Memory.read, this, if_false]
    exact ih fun d hd => h d (by simp [hd])

theorem Memory.read_write_same {m : Memory} (hm : m.wf) (a : Nat) (v : Word) :
    (Memory.write m a v).read a = v := by
  induction m with
  | nil => by_cases hv : v = 0 <;> simp [Memory.write, Memory.read, hv]
  | cons c m ih =>
    obtain ⟨b, u⟩ := c
    obtain ⟨hs, hz⟩ := hm
    rw [List.pairwise_cons] at hs
    have hm' : Memory.wf m := ⟨hs.2, fun c hc => hz c (by simp [hc])⟩
    simp only [Memory.write]
    split
    · rename_i hab
      split
      · rename_i hv
        subst hv
        exact Memory.read_of_lt_all fun d hd => by
          rcases List.mem_cons.1 hd with rfl | hd
          · exact hab
          · exact lt_trans hab (hs.1 d hd)
      · simp [Memory.read]
    · split
      · rename_i hab
        split
        · rename_i hv
          subst hv hab
          exact Memory.read_of_lt_all fun d hd => hs.1 d hd
        · simp [Memory.read]
      · rename_i hab
        have : b ≠ a := fun h => hab h.symm
        simp only [Memory.read, this, if_false]
        exact ih hm'

theorem Memory.read_write_other (m : Memory) {a b : Nat} (v : Word) (h : b ≠ a) :
    (Memory.write m a v).read b = m.read b := by
  have h' : a ≠ b := Ne.symm h
  induction m with
  | nil => by_cases hv : v = 0 <;> simp [Memory.write, Memory.read, hv, h']
  | cons c m ih =>
    obtain ⟨d, u⟩ := c
    simp only [Memory.write]
    split
    · split <;> simp [Memory.read, h']
    · split
      · rename_i hd
        subst hd
        split <;> simp [Memory.read, h']
      · simp only [Memory.read, ih]

/-- Every listed cell of a written memory is the written one or was listed before. -/
theorem Memory.mem_write {m : Memory} {a : Nat} {v : Word} {c : Nat × Word} (h : c ∈ Memory.write m a v) :
    (c = (a, v) ∧ v ≠ 0) ∨ c ∈ m := by
  induction m with
  | nil =>
    by_cases hv : v = 0
    · simp [Memory.write, hv] at h
    · simp only [Memory.write, hv, if_false, List.mem_singleton] at h
      exact .inl ⟨h, hv⟩
  | cons d m ih =>
    obtain ⟨b, u⟩ := d
    simp only [Memory.write] at h
    split at h
    · split at h
      · exact .inr h
      · rename_i hv
        rcases List.mem_cons.1 h with rfl | h
        · exact .inl ⟨rfl, hv⟩
        · exact .inr h
    · split at h
      · split at h
        · exact .inr (by simp [h])
        · rename_i hv
          rcases List.mem_cons.1 h with rfl | h
          · exact .inl ⟨rfl, hv⟩
          · exact .inr (by simp [h])
      · rcases List.mem_cons.1 h with rfl | h
        · exact .inr (by simp)
        · rcases ih h with h | h
          · exact .inl h
          · exact .inr (by simp [h])

theorem Memory.write_wf {m : Memory} (hm : m.wf) (a : Nat) (v : Word) : (Memory.write m a v).wf := by
  refine ⟨?_, fun c hc => ?_⟩
  · obtain ⟨hs, -⟩ := hm
    induction m with
    | nil => by_cases hv : v = 0 <;> simp [Memory.write, hv]
    | cons c m ih =>
      obtain ⟨b, u⟩ := c
      have hs' := List.pairwise_cons.1 hs
      simp only [Memory.write]
      split
      · rename_i hab
        split
        · exact hs
        · refine List.pairwise_cons.2 ⟨fun d hd => ?_, hs⟩
          rcases List.mem_cons.1 hd with rfl | hd
          · exact hab
          · exact lt_trans hab (hs'.1 d hd)
      · split
        · rename_i hab
          subst hab
          split
          · exact hs'.2
          · exact List.pairwise_cons.2 ⟨hs'.1, hs'.2⟩
        · refine List.pairwise_cons.2 ⟨fun d hd => ?_, ih hs'.2⟩
          rcases Memory.mem_write hd with ⟨rfl, -⟩ | hd
          · show b < a
            omega
          · exact hs'.1 d hd
  · rcases Memory.mem_write hc with ⟨rfl, hv⟩ | hc
    · exact hv
    · exact hm.2 c hc

/-- The cells a list of words is laid out in. -/
theorem Memory.mem_ofWords {vs : List Word} {i : Nat} {c : Nat × Word} (h : c ∈ Memory.ofWords i vs) :
    i ≤ c.1 ∧ c.1 < i + vs.length ∧ c.2 ∈ vs ∧ c.2 ≠ 0 := by
  induction vs generalizing i with
  | nil => simp [Memory.ofWords] at h
  | cons v vs ih =>
    simp only [Memory.ofWords] at h
    split at h
    · obtain ⟨h1, h2, h3, h4⟩ := ih h
      exact ⟨by omega, by simp only [List.length_cons]; omega, by simp [h3], h4⟩
    · rename_i hv
      rcases List.mem_cons.1 h with rfl | h
      · exact ⟨le_refl _, by simp only [List.length_cons]; omega, by simp, hv⟩
      · obtain ⟨h1, h2, h3, h4⟩ := ih h
        exact ⟨by omega, by simp only [List.length_cons]; omega, by simp [h3], h4⟩

theorem Memory.ofWords_sorted (i : Nat) (vs : List Word) :
    (Memory.ofWords i vs).Pairwise (fun x y => x.1 < y.1) := by
  induction vs generalizing i with
  | nil => simp [Memory.ofWords]
  | cons v vs ih =>
    simp only [Memory.ofWords]
    split
    · exact ih _
    · exact List.pairwise_cons.2 ⟨fun d hd => (Memory.mem_ofWords hd).1, ih _⟩

/-- LoadImage keeps the canonical form, for an image that fits. -/
theorem Memory.loadImage_wf {m : Memory} (hm : m.wf) {cap : Nat} {vs : List Word} (h : vs.length ≤ cap) :
    (Memory.loadImage cap vs m).wf := by
  refine ⟨List.pairwise_append.2 ⟨Memory.ofWords_sorted 0 vs, hm.1.filter _, fun x hx y hy => ?_⟩, fun c hc => ?_⟩
  · have hx' := Memory.mem_ofWords hx
    have hy' : cap ≤ y.1 := by simpa using (List.mem_filter.1 hy).2
    omega
  · rcases List.mem_append.1 hc with hc | hc
    · exact (Memory.mem_ofWords hc).2.2.2
    · exact hm.2 c (List.mem_filter.1 hc).1

/-- A laid-out image reads back word by word, and as 0 outside it. -/
theorem Memory.read_ofWords (i : Nat) (vs : List Word) (a : Nat) :
    (Memory.ofWords i vs).read a = if i ≤ a then vs.getD (a - i) 0 else 0 := by
  induction vs generalizing i with
  | nil => simp [Memory.ofWords, Memory.read]
  | cons v vs ih =>
    have tail : Memory.read (Memory.ofWords (i + 1) vs) a =
        if i + 1 ≤ a then vs.getD (a - (i + 1)) 0 else 0 := ih (i + 1)
    have shift : i + 1 ≤ a → (v :: vs).getD (a - i) 0 = vs.getD (a - (i + 1)) 0 := fun h => by
      rw [show a - i = (a - (i + 1)) + 1 by omega, List.getD_cons_succ]
    simp only [Memory.ofWords]
    split
    · rename_i hv
      rw [tail]
      by_cases h : i + 1 ≤ a
      · rw [if_pos h, if_pos (by omega), shift h]
      · by_cases h' : i = a
        · subst h'
          simp [hv]
        · rw [if_neg h, if_neg (by omega)]
    · simp only [Memory.read]
      by_cases h' : i = a
      · subst h'
        simp
      · rw [if_neg h', tail]
        by_cases h : i + 1 ≤ a
        · rw [if_pos h, if_pos (by omega), shift h]
        · rw [if_neg h, if_neg (by omega)]

/-- A read of two lists one after the other, the second of addresses the first does not reach. -/
theorem Memory.read_append (m n : Memory) (a : Nat) (h : ∀ c ∈ m, c.1 ≠ a) :
    Memory.read (m ++ n) a = Memory.read n a := by
  induction m with
  | nil => rfl
  | cons c m ih =>
    have := h c (by simp)
    simp only [List.cons_append, Memory.read, this, if_false]
    exact ih fun d hd => h d (by simp [hd])

end Sys2Proof.Machine
end

