-- ==== Sys2Proof/Laws/Ops.lean ====
section
/-! SUPPORT. One lemma per shared operation: everything it can answer.  Later proofs cite these and unfold no operation. -/

namespace Sys2Proof.Machine

variable {s t : State} {a : Nat}

theorem raise_next {c : Cause} (h : raise c s = .next t) : t = s.enterFault c := by
  cases h; rfl

/-- R53: the two ends of a checked read. -/
theorem checkedRead_of_lt (k : Word → Result) (h : a < s.cfg.cap) : checkedRead a s k = k (s.cell a) := by
  rw [checkedRead, if_neg (by omega)]

theorem checkedRead_of_le (k : Word → Result) (h : s.cfg.cap ≤ a) :
    checkedRead a s k = raise .memoryRange s := by
  rw [checkedRead, if_pos h]

theorem checkedRead_next {k : Word → Result} (h : checkedRead a s k = .next t) :
    (s.cfg.cap ≤ a ∧ t = s.enterFault .memoryRange) ∨ (a < s.cfg.cap ∧ k (s.cell a) = .next t) := by
  by_cases hc : s.cfg.cap ≤ a
  · rw [checkedRead_of_le k hc] at h
    exact .inl ⟨hc, raise_next h⟩
  · rw [checkedRead_of_lt k (by omega)] at h
    exact .inr ⟨by omega, h⟩

/-- R53, R110: the two ends of a checked write. -/
theorem checkedWriteCommit_of_lt (v : Word) (h : a < s.cfg.cap) :
    checkedWriteCommit a v s = .next (s.setCell a v).commitSeq := by
  rw [checkedWriteCommit, if_neg (by omega)]

theorem checkedWriteCommit_of_le (v : Word) (h : s.cfg.cap ≤ a) :
    checkedWriteCommit a v s = raise .memoryRange s := by
  rw [checkedWriteCommit, if_pos h]

theorem checkedWriteCommit_next {v : Word} (h : checkedWriteCommit a v s = .next t) :
    (s.cfg.cap ≤ a ∧ t = s.enterFault .memoryRange) ∨ (a < s.cfg.cap ∧ t = (s.setCell a v).commitSeq) := by
  by_cases hc : s.cfg.cap ≤ a
  · rw [checkedWriteCommit_of_le v hc] at h
    exact .inl ⟨hc, raise_next h⟩
  · rw [checkedWriteCommit_of_lt v (by omega)] at h
    cases h
    exact .inr ⟨by omega, rfl⟩

/-- R150: the two ends of an arithmetic result. -/
theorem writeAccChecked_of_inRange {r : Int} (h : InRange s.cfg r) :
    writeAccChecked r s = .next (s.setAcc r).commitSeq := by
  rw [writeAccChecked, if_pos h]

theorem writeAccChecked_of_not {r : Int} (h : ¬ InRange s.cfg r) : writeAccChecked r s = raise .overflow s := by
  rw [writeAccChecked, if_neg h]

theorem writeAccChecked_next {r : Int} (h : writeAccChecked r s = .next t) :
    (¬ InRange s.cfg r ∧ t = s.enterFault .overflow) ∨ (InRange s.cfg r ∧ t = (s.setAcc r).commitSeq) := by
  by_cases hr : InRange s.cfg r
  · rw [writeAccChecked_of_inRange hr] at h
    cases h
    exact .inr ⟨hr, rfl⟩
  · rw [writeAccChecked_of_not hr] at h
    exact .inl ⟨hr, raise_next h⟩

/-- R127: what ParseInt gives is in range. -/
theorem parseInt_inRange {c : Config} {line : Line} {v : Word} (h : parseInt c line = some v) : InRange c v := by
  unfold parseInt at h
  simp only at h
  split at h
  · rename_i hc
    cases h
    exact hc.2.2
  · cases h

/-- R120, R121: the three ends of a READ whose line has come. -/
theorem finishRead_of_invalid {line : Line} (h : parseInt s.cfg line = none) :
    finishRead a line s = raise .invalidInput s := by
  rw [finishRead, h]

theorem finishRead_of_parsed {line : Line} {v : Word} (h : parseInt s.cfg line = some v) :
    finishRead a line s = checkedWriteCommit a v s := by
  rw [finishRead, h]

theorem finishRead_next {line : Line} (h : finishRead a line s = .next t) :
    t = s.enterFault .invalidInput ∨ (s.cfg.cap ≤ a ∧ t = s.enterFault .memoryRange) ∨
    ∃ v, parseInt s.cfg line = some v ∧ a < s.cfg.cap ∧ t = (s.setCell a v).commitSeq := by
  cases hp : parseInt s.cfg line with
  | none =>
    rw [finishRead_of_invalid hp] at h
    exact .inl (raise_next h)
  | some v =>
    rw [finishRead_of_parsed hp] at h
    rcases checkedWriteCommit_next h with h | ⟨hc, h⟩
    · exact .inr (.inl h)
    · exact .inr (.inr ⟨v, rfl, hc, h⟩)

/-- R101: the fetch. -/
theorem fetch_of_lt (h : s.pc < s.cfg.cap) : fetch s = some (s.setIr (s.cell s.pc)) := by
  rw [fetch, if_neg (by omega)]

theorem fetch_of_le (h : s.cfg.cap ≤ s.pc) : fetch s = none := by
  rw [fetch, if_pos h]

/-- R108, R109: STATE after a commit is READY or HALTED. -/
theorem commit_runState_ne (n : Nat) (x : RunState) (h1 : x ≠ .halted) (h2 : x ≠ .ready) :
    (s.commit n).runState ≠ x := by
  simp only [State.commit_runState]
  split
  · exact Ne.symm h1
  · exact Ne.symm h2

theorem inProgress_iff : s.inProgress = true ↔ s.runState = .busy ∨ s.runState = .waitInput := by
  unfold State.inProgress
  cases s.runState <;> simp

/-- R8, R22: the PC fits its `PCW` bits. -/
theorem pc_lt_two_pow_pcw (h : s.Inv) : s.pc < 2 ^ s.cfg.pcw := by
  have hb : s.cfg.bound ≠ 0 := by
    have := h.cfg_wf.2.2
    omega
  rw [Config.pcw, if_neg hb]
  exact lt_of_le_of_lt h.pc_le_bound Nat.lt_log2_self

/-- R113: the transaction taken is one of those queued, and a STEP is taken only when no step is in progress. -/
theorem takeEvent_some {b : Bool} {q rest : List HostEvent} {e : HostEvent} (h : takeEvent b q = some (e, rest)) :
    (e = .step → b = false) ∧ ∃ n, q = List.replicate n .step ++ e :: (rest.drop n) ∧
      rest = List.replicate n .step ++ rest.drop n ∧ (b = false → n = 0) := by
  induction q generalizing rest with
  | nil => simp [takeEvent] at h
  | cons x q ih =>
    cases x with
    | step =>
      simp only [takeEvent] at h
      split at h
      · rename_i hb
        cases hq : takeEvent b q with
        | none => rw [hq] at h; cases h
        | some p =>
          obtain ⟨e', r⟩ := p
          rw [hq] at h
          simp only [Option.some.injEq, Prod.mk.injEq] at h
          obtain ⟨rfl, rfl⟩ := h
          obtain ⟨h1, n, h2, h3, -⟩ := ih hq
          refine ⟨h1, n + 1, ?_, ?_, fun hb' => absurd hb' (by simp [hb])⟩
          · rw [List.replicate_succ]
            simpa using h2
          · rw [List.replicate_succ]
            simpa using h3
      · rename_i hb
        cases h
        exact ⟨fun _ => by simpa using hb, 0, by simp, by simp, fun _ => rfl⟩
    | reset => cases h; exact ⟨(nofun), 0, by simp, by simp, fun _ => rfl⟩
    | inResp l => cases h; exact ⟨(nofun), 0, by simp, by simp, fun _ => rfl⟩
    | loadProgram ls => cases h; exact ⟨(nofun), 0, by simp, by simp, fun _ => rfl⟩
    | hostRead b => cases h; exact ⟨(nofun), 0, by simp, by simp, fun _ => rfl⟩
    | readRegs => cases h; exact ⟨(nofun), 0, by simp, by simp, fun _ => rfl⟩

/-- R113: nothing is taken only where every queued transaction is a STEP that has to wait, or none is queued. -/
theorem takeEvent_none {b : Bool} {q : List HostEvent} :
    takeEvent b q = none ↔ q = [] ∨ (b = true ∧ ∀ e ∈ q, e = .step) := by
  induction q with
  | nil => simp [takeEvent]
  | cons x q ih =>
    cases x with
    | step =>
      simp only [takeEvent]
      cases b with
      | false => simp
      | true =>
        simp only [if_true, List.cons_ne_nil, false_or, List.mem_cons, forall_eq_or_imp, true_and]
        cases hq : takeEvent true q with
        | none =>
          simp only [true_iff]
          rcases ih.1 hq with rfl | ⟨-, h⟩
          · simp
          · exact h
        | some p =>
          simp only [reduceCtorEq, false_iff]
          intro h
          rw [ih.2 (.inr ⟨rfl, h⟩)] at hq
          cases hq
    | reset => simp [takeEvent]
    | inResp l => simp [takeEvent]
    | loadProgram ls => simp [takeEvent]
    | hostRead b => simp [takeEvent]
    | readRegs => simp [takeEvent]

end Sys2Proof.Machine
end

