-- ==== Sys2Proof/Laws/Exec.lean ====
section
/-! SUPPORT. Inversion: everything an instruction, a step and a transaction can do when they answer a next state. -/

namespace Sys2Proof.Machine

variable {s t : State}

/-- The ways one instruction's operation ends (R36). -/
inductive Effect (s : State) : Instr → State → Prop
  /-- a fault of the operation (R193); READ's line is consumed (R121) -/
  | fault (i : Instr) (c : Cause) (ls : List Line) (hc : c = .memoryRange ∧ s.cfg.cap ≤ i.operand ∨ c = .invalidInput ∨
      c = .divideByZero ∨ c = .overflow) (hl : ls = s.inputs ∨ (∃ a, i = .read a) ∧ ls = s.inputs.tail) :
      Effect s i ((s.setInputs ls).enterFault c)
  | wait (a : Nat) (h : s.inputs = []) : Effect s (.read a) s.requestInput
  | read (a : Nat) (line : Line) (rest : List Line) (v : Word) (hi : s.inputs = line :: rest)
      (hp : parseInt s.cfg line = some v) (ha : a < s.cfg.cap) :
      Effect s (.read a) ((s.setInputs rest).requestInput.acceptInput.setCell a v).commitSeq
  | store (a : Nat) (ha : a < s.cfg.cap) : Effect s (.store a) (s.setCell a s.acc).commitSeq
  | write (a : Nat) (ha : a < s.cfg.cap) : Effect s (.write a) (s.emit (outputLine (s.cell a))).commitSeq
  | load (a : Nat) (ha : a < s.cfg.cap) : Effect s (.load a) (s.setAcc (s.cell a)).commitSeq
  | arith (i : Instr) (r : Int) (hi : i.opcode ∈ [30, 31, 32, 33]) (ha : i.operand < s.cfg.cap) (hr : InRange s.cfg r) :
      Effect s i (s.setAcc r).commitSeq
  | branch (i : Instr) (p : Nat) (hi : i.opcode ∈ [40, 41, 42]) (hp : p = i.operand ∨ p = s.pc) :
      Effect s i (s.commit p)
  | halt (a : Nat) : Effect s (.halt a) ((s.emit finishedLine).commit s.cfg.bound)

/-- Everything an instruction can do. -/
theorem exec_next {i : Instr} (h : exec i s = .next t) : Effect s i t := by
  cases i with
  | read a =>
    change execRead a s = _ at h
    unfold execRead at h
    split at h
    · rename_i hi
      cases h
      exact .wait a hi
    · rename_i line rest hi
      have tl : rest = s.inputs.tail := by rw [hi]; rfl
      rcases finishRead_next h with rfl | ⟨hc, rfl⟩ | ⟨v, hp, ha, rfl⟩
      · exact .fault (.read a) .invalidInput rest (.inr (.inl rfl)) (.inr ⟨⟨a, rfl⟩, tl⟩)
      · exact .fault (.read a) .memoryRange rest (.inl ⟨rfl, hc⟩) (.inr ⟨⟨a, rfl⟩, tl⟩)
      · exact .read a line rest v hi hp ha
  | write a =>
    change execWrite a s = _ at h
    unfold execWrite at h
    rcases checkedRead_next h with ⟨hc, rfl⟩ | ⟨ha, h⟩
    · exact .fault (.write a) .memoryRange s.inputs (.inl ⟨rfl, hc⟩) (.inl rfl)
    · cases h; exact .write a ha
  | load a =>
    change execLoad a s = _ at h
    unfold execLoad at h
    rcases checkedRead_next h with ⟨hc, rfl⟩ | ⟨ha, h⟩
    · exact .fault (.load a) .memoryRange s.inputs (.inl ⟨rfl, hc⟩) (.inl rfl)
    · cases h; exact .load a ha
  | store a =>
    rcases checkedWriteCommit_next h with ⟨hc, rfl⟩ | ⟨ha, rfl⟩
    · exact .fault (.store a) .memoryRange s.inputs (.inl ⟨rfl, hc⟩) (.inl rfl)
    · exact .store a ha
  | add a =>
    change execAdd a s = _ at h
    unfold execAdd at h
    rcases checkedRead_next h with ⟨hc, rfl⟩ | ⟨ha, h⟩
    · exact .fault (.add a) .memoryRange s.inputs (.inl ⟨rfl, hc⟩) (.inl rfl)
    · rcases writeAccChecked_next h with ⟨-, rfl⟩ | ⟨hr, rfl⟩
      · exact .fault (.add a) .overflow s.inputs (.inr (.inr (.inr rfl))) (.inl rfl)
      · exact .arith (.add a) _ (by simp [Instr.opcode]) ha hr
  | subtract a =>
    change execSubtract a s = _ at h
    unfold execSubtract at h
    rcases checkedRead_next h with ⟨hc, rfl⟩ | ⟨ha, h⟩
    · exact .fault (.subtract a) .memoryRange s.inputs (.inl ⟨rfl, hc⟩) (.inl rfl)
    · rcases writeAccChecked_next h with ⟨-, rfl⟩ | ⟨hr, rfl⟩
      · exact .fault (.subtract a) .overflow s.inputs (.inr (.inr (.inr rfl))) (.inl rfl)
      · exact .arith (.subtract a) _ (by simp [Instr.opcode]) ha hr
  | divide a =>
    change execDivide a s = _ at h
    unfold execDivide at h
    rcases checkedRead_next h with ⟨hc, rfl⟩ | ⟨ha, h⟩
    · exact .fault (.divide a) .memoryRange s.inputs (.inl ⟨rfl, hc⟩) (.inl rfl)
    · split at h
      · rw [raise_next h]
        exact .fault (.divide a) .divideByZero s.inputs (.inr (.inr (.inl rfl))) (.inl rfl)
      · rcases writeAccChecked_next h with ⟨-, rfl⟩ | ⟨hr, rfl⟩
        · exact .fault (.divide a) .overflow s.inputs (.inr (.inr (.inr rfl))) (.inl rfl)
        · exact .arith (.divide a) _ (by simp [Instr.opcode]) ha hr
  | multiply a =>
    change execMultiply a s = _ at h
    unfold execMultiply at h
    rcases checkedRead_next h with ⟨hc, rfl⟩ | ⟨ha, h⟩
    · exact .fault (.multiply a) .memoryRange s.inputs (.inl ⟨rfl, hc⟩) (.inl rfl)
    · rcases writeAccChecked_next h with ⟨-, rfl⟩ | ⟨hr, rfl⟩
      · exact .fault (.multiply a) .overflow s.inputs (.inr (.inr (.inr rfl))) (.inl rfl)
      · exact .arith (.multiply a) _ (by simp [Instr.opcode]) ha hr
  | branch a =>
    cases h
    exact .branch (.branch a) a (by simp [Instr.opcode]) (.inl rfl)
  | branchneg a =>
    change execBranchneg a s = _ at h
    unfold execBranchneg at h
    cases h
    exact .branch (.branchneg a) _ (by simp [Instr.opcode]) (by split <;> simp [Instr.operand])
  | branchzero a =>
    change execBranchzero a s = _ at h
    unfold execBranchzero at h
    cases h
    exact .branch (.branchzero a) _ (by simp [Instr.opcode]) (by split <;> simp [Instr.operand])
  | halt a =>
    cases h
    exact .halt a

/-- No instruction stops the model: every operation answers a next state (R14, R193). -/
theorem exec_answers (i : Instr) (s : State) : ∃ t, exec i s = .next t := by
  have raised (c : Cause) (s : State) : ∃ t, raise c s = .next t :=
    ⟨_, rfl⟩
  have written (a : Nat) (v : Word) (s : State) : ∃ t, checkedWriteCommit a v s = .next t := by
    unfold checkedWriteCommit
    split
    · exact raised _ _
    · exact ⟨_, rfl⟩
  have result (r : Int) (s : State) : ∃ t, writeAccChecked r s = .next t := by
    unfold writeAccChecked
    split
    · exact ⟨_, rfl⟩
    · exact raised _ _
  have readThen (a : Nat) (s : State) (k : Word → Result) (hk : ∀ v, ∃ t, k v = .next t) :
      ∃ t, checkedRead a s k = .next t := by
    unfold checkedRead
    split
    · exact raised _ _
    · exact hk _
  cases i with
  | read a =>
    change ∃ t, execRead a s = _
    unfold execRead
    split
    · exact ⟨_, rfl⟩
    · unfold finishRead
      split
      · exact raised _ _
      · exact written _ _ _
  | write a => exact readThen _ _ _ fun v => ⟨_, rfl⟩
  | load a => exact readThen _ _ _ fun v => ⟨_, rfl⟩
  | store a => exact written _ _ _
  | add a => exact readThen _ _ _ fun v => result _ _
  | subtract a => exact readThen _ _ _ fun v => result _ _
  | divide a =>
    change ∃ t, execDivide a s = _
    unfold execDivide
    refine readThen _ _ _ fun v => ?_
    split
    · exact raised _ _
    · exact result _ _
  | multiply a => exact readThen _ _ _ fun v => result _ _
  | branch a => exact ⟨_, rfl⟩
  | branchneg a => exact ⟨_, rfl⟩
  | branchzero a => exact ⟨_, rfl⟩
  | halt a => exact ⟨_, rfl⟩

/-- A resumed READ does what READ itself does once its line has come. -/
theorem resumeRead_next {line : Line} (h : resumeRead line s = .next t) :
    t = s.enterFault .invalidInput ∨ (s.cfg.cap ≤ operandOf s.ir ∧ t = s.enterFault .memoryRange) ∨
    ∃ v, parseInt s.cfg line = some v ∧ operandOf s.ir < s.cfg.cap ∧
      t = (s.acceptInput.setCell (operandOf s.ir) v).commitSeq :=
  finishRead_next h

/-- Everything a step from READY can do (R100). -/
theorem runInstruction_next (h : runInstruction s = .next t) :
    (s.cfg.cap ≤ s.pc ∧ t = s.enterFault .memoryRange) ∨
    (s.pc < s.cfg.cap ∧ s.cfg.bound ≤ operandOf (s.cell s.pc) ∧
      t = (s.setIr (s.cell s.pc)).enterFault .invalidAddress) ∨
    (s.pc < s.cfg.cap ∧ operandOf (s.cell s.pc) < s.cfg.bound ∧ (∃ n, decode (s.cell s.pc) = .undefinedOpcode n) ∧
      t = (s.setIr (s.cell s.pc)).enterFault .invalidInstruction) ∨
    (s.pc < s.cfg.cap ∧ operandOf (s.cell s.pc) < s.cfg.bound ∧ ∃ i, decode (s.cell s.pc) = .instr i ∧
      Effect (s.beginStep.setIr (s.cell s.pc)) i t) := by
  by_cases hc : s.cfg.cap ≤ s.pc
  · rw [runInstruction, fetch_of_le (s := s.beginStep) hc] at h
    exact .inl ⟨hc, raise_next h⟩
  · have hlt : s.pc < s.cfg.cap := by omega
    rw [runInstruction, fetch_of_lt (s := s.beginStep) hlt] at h
    simp only [runFetched] at h
    split at h
    · rename_i hb
      exact .inr (.inl ⟨hlt, hb, raise_next h⟩)
    · rename_i hb
      have hb' : operandOf (s.cell s.pc) < s.cfg.bound := Nat.lt_of_not_le hb
      split at h
      · rename_i n hd
        exact .inr (.inr (.inl ⟨hlt, hb', ⟨n, hd⟩, raise_next h⟩))
      · rename_i i hd
        exact .inr (.inr (.inr ⟨hlt, hb', i, hd, exec_next h⟩))

/-- Everything a STEP request can do, in any STATE (R112, R113). -/
theorem stepRequest_next (h : stepRequest s = .next t) :
    (s.runState = .ready ∧ runInstruction s = .next t) ∨
    (s.runState = .waitInput ∧ ∃ line rest, s.inputs = line :: rest ∧ resumeRead line (s.setInputs rest) = .next t) ∨
    t = s := by
  unfold stepRequest at h
  split at h
  · rename_i hr
    exact .inl ⟨hr, h⟩
  · cases h
    exact .inr (.inr rfl)
  · rename_i hr
    split at h
    · cases h
      exact .inr (.inr rfl)
    · rename_i line rest hi
      exact .inr (.inl ⟨hr, line, rest, hi, h⟩)
  · cases h
    exact .inr (.inr rfl)
  · cases h
    exact .inr (.inr rfl)

/-- One transition is the next transaction taken, or a STEP request when none can be (R112, R113). -/
theorem step_cases (s : State) :
    (∃ e q, takeEvent s.inProgress s.hostq = some (e, q) ∧ step s = hostTransaction e (s.setHostq q)) ∨
    (takeEvent s.inProgress s.hostq = none ∧ step s = stepRequest s) := by
  unfold step transition
  cases takeEvent s.inProgress s.hostq with
  | none => exact .inr ⟨rfl, rfl⟩
  | some p => exact .inl ⟨p.1, p.2, rfl, rfl⟩

/-- A load changes memory, by an image whose lines passed every check, or nothing but the reply (R89, R225). -/
theorem loadProgram_cases (ls : List Line) (s : State) :
    (s.inProgress = true ∧ loadProgram ls s = s.reply (.load .busy)) ∨
    (s.inProgress = false ∧ checkProgram s.cfg.cap ls = .ok ∧
      loadProgram ls s =
        { s with mem := s.mem.loadImage s.cfg.cap (ls.map lineWord), replies := s.replies ++ [.load .ok] }) ∨
    (s.inProgress = false ∧ checkProgram s.cfg.cap ls ≠ .ok ∧
      loadProgram ls s = s.reply (.load (checkProgram s.cfg.cap ls))) := by
  unfold loadProgram
  cases hp : s.inProgress with
  | true => exact .inl ⟨rfl, by simp⟩
  | false =>
    cases hc : checkProgram s.cfg.cap ls <;> simp

/-- A HostRead that answers changes nothing but the reply (R55). -/
theorem hostRead_next {a : Nat} (h : hostRead a s = .next t) :
    (s.inProgress = true ∧ t = s.reply .readBusy) ∨
    (s.inProgress = false ∧ a < s.cfg.cap ∧ t = s.reply (.word (s.cell a))) := by
  unfold hostRead at h
  split at h
  · rename_i hp
    cases h
    exact .inl ⟨hp, rfl⟩
  · rename_i hp
    split at h
    · cases h
    · rename_i hc
      cases h
      exact .inr ⟨by simpa using hp, by omega, rfl⟩

/-- What is left of the queue when a transaction is taken from it (R113). -/
theorem queueAfter_of_takeEvent {e : HostEvent} {q : List HostEvent}
    (h : takeEvent s.inProgress s.hostq = some (e, q)) : QueueAfter s q := by
  obtain ⟨h1, n, h2, h3, h4⟩ := takeEvent_some h
  exact .inr ⟨n, e, q.drop n, h2, h3, h4, h1⟩

/-- Between steps, and before a transaction that is no STEP, the one taken is the first. -/
theorem takeEvent_cons {b : Bool} {e : HostEvent} {q : List HostEvent} (h : e ≠ .step ∨ b = false) :
    takeEvent b (e :: q) = some (e, q) := by
  cases e <;> simp_all [takeEvent]

/-- R113: the STEPs that have to wait stay, and the first transaction that is no STEP is taken. -/
theorem takeEvent_replicate {e : HostEvent} (h : e ≠ .step) (n : Nat) (q : List HostEvent) :
    takeEvent true (List.replicate n .step ++ e :: q) = some (e, List.replicate n .step ++ q) := by
  induction n with
  | zero => exact takeEvent_cons (.inl h)
  | succ n ih => simp [List.replicate_succ, takeEvent, ih]

/-- A transition with `e` first in the queue, where nothing keeps `e` waiting. -/
theorem step_of_first {e : HostEvent} {q : List HostEvent} (hq : s.hostq = e :: q)
    (h : e ≠ .step ∨ s.inProgress = false) : step s = hostTransaction e (s.setHostq q) := by
  rw [step, transition, hq, takeEvent_cons h]

/-- The ways one transition of the machine ends. -/
inductive Transition (s : State) : State → Prop
  /-- no effect but the transaction taken: a STEP held or ignored (R113), a line nobody asked for (R129) -/
  | none (q : List HostEvent) (hq : QueueAfter s q) : Transition s (s.setHostq q)
  /-- a step from READY (R100) -/
  | run (q : List HostEvent) (t : State) (hq : QueueAfter s q) (hr : s.runState = .ready)
      (h : runInstruction (s.setHostq q) = .next t) :
      Transition s t
  /-- a line for the READ in progress (R125), delivered or ready at the input source -/
  | resume (q : List HostEvent) (line : Line) (ls : List Line) (t : State) (hq : QueueAfter s q)
      (hr : s.runState = .waitInput ∨ s.inpend = true) (hl : ls = s.inputs ∨ ls = s.inputs.tail)
      (h : resumeRead line ((s.setHostq q).setInputs ls) = .next t) : Transition s t
  /-- RESET (R220) -/
  | reset (q : List HostEvent) (ht : takeEvent s.inProgress s.hostq = some (.reset, q)) :
      Transition s (s.setHostq q).resetCore
  /-- a program accepted and written (R57, R89) -/
  | load (q : List HostEvent) (ls : List Line) (hp : s.inProgress = false)
      (ht : takeEvent s.inProgress s.hostq = some (.loadProgram ls, q)) (hc : checkProgram s.cfg.cap ls = .ok) :
      Transition s { s.setHostq q with
        mem := s.mem.loadImage s.cfg.cap (ls.map lineWord), replies := s.replies ++ [.load .ok] }
  /-- a transaction that only answers (R32, R55, R90) -/
  | reply (q : List HostEvent) (r : HostReply) (hq : QueueAfter s q) : Transition s ((s.setHostq q).reply r)

/-- Everything a transition of the machine can do. -/
theorem step_next (h : step s = .next t) : Transition s t := by
  have request (q : List HostEvent) (hq : QueueAfter s q) (h : stepRequest (s.setHostq q) = .next t) : Transition s t := by
    rcases stepRequest_next h with ⟨hr, he⟩ | ⟨hr, line, rest, hi, he⟩ | rfl
    · exact .run q t hq hr he
    · have hi' : s.inputs = line :: rest := hi
      exact .resume q line rest t hq (.inl hr) (.inr (by rw [hi']; rfl)) he
    · exact .none q hq
  rcases step_cases s with ⟨e, q, ht, he⟩ | ⟨-, he⟩
  · rw [he] at h
    have hq := queueAfter_of_takeEvent ht
    cases e with
    | step => exact request q hq h
    | reset =>
      cases h
      exact .reset q ht
    | inResp line =>
      simp only [hostTransaction] at h
      split at h
      · rename_i hi
        exact .resume q line s.inputs t hq (.inr hi) (.inl rfl) h
      · cases h
        exact .none q hq
    | loadProgram ls =>
      simp only [hostTransaction] at h
      cases h
      rcases loadProgram_cases ls (s.setHostq q) with ⟨-, e⟩ | ⟨hp, hc, e⟩ | ⟨-, -, e⟩
      · rw [e]
        exact .reply q _ hq
      · rw [e]
        exact .load q ls hp ht hc
      · rw [e]
        exact .reply q _ hq
    | hostRead a =>
      rcases hostRead_next h with ⟨-, rfl⟩ | ⟨-, -, rfl⟩
      · exact .reply q _ hq
      · exact .reply q _ hq
    | readRegs =>
      cases h
      exact .reply q _ hq
  · rw [he] at h
    exact request s.hostq (.inl rfl) h

/-- A step that fetches `w` is the rest of the cycle on the fetched state. -/
theorem step_of_fetches {w : Word} (h : Fetches s w) : step s = runFetched (s.fetched w) := by
  obtain ⟨hq, hr, hc, hw⟩ := h
  have run (u : State) (h1 : u.runState = .ready) (h2 : u.pc < u.cfg.cap) :
      stepRequest u = runFetched (u.beginStep.setIr (u.cell u.pc)) := by
    unfold stepRequest
    rw [h1]
    simp only [runInstruction, fetch_of_lt (s := u.beginStep) h2]
    rfl
  have hp : s.inProgress = false := by simp [State.inProgress, hr]
  subst hw
  unfold step transition
  rcases hq with hq | ⟨-, hq⟩
  · rw [hq]
    simp only [takeEvent]
    rw [run s hr hc]
    simp only [State.fetched, hq, List.tail_nil]
    congr 1
    cases s
    simp only at hq
    subst hq
    rfl
  · cases hs : s.hostq with
    | nil => simp [hs] at hq
    | cons e q =>
      rw [hs] at hq
      simp only [List.head?_cons, Option.some.injEq] at hq
      subst hq
      simp only [takeEvent, hp]
      simp only [Bool.false_eq_true, if_false]
      change stepRequest (s.setHostq q) = _
      rw [run (s.setHostq q) hr hc]
      simp only [State.fetched, hs, List.tail_cons]
      rfl

end Sys2Proof.Machine
end

