-- ==== Sys2Proof/Laws/Loader.lean ====
section
/-! SUPPORT. What the loader's checks answer (R85 to R87, R89), said once, in the conditions of Safety. -/

namespace Sys2Proof.Machine

/-- The four ends of the checks of one line, in their order; `n` is the length the line is held to. -/
theorem checkLine_eq (first : Option Nat) (l : Line) :
    (¬ LineNumeric l → checkLine first l = .notNumeric) ∧
    (LineNumeric l → ¬ LineLength l → checkLine first l = .badLength) ∧
    (LineNumeric l → LineLength l → (coreOf l).length ≠ first.getD (coreOf l).length →
      checkLine first l = .lengthMismatch) ∧
    (LineNumeric l → LineLength l → (coreOf l).length = first.getD (coreOf l).length → checkLine first l = .ok) := by
  have hn : (coreOf l).all isDigit = false ↔ ¬ LineNumeric l := by
    rw [← Bool.not_eq_true, List.all_eq_true]
  have hl : ((coreOf l).length ≠ 4 ∧ (coreOf l).length ≠ 6) ↔ ¬ LineLength l := not_or.symm
  simp only [checkLine, hn, hl]
  refine ⟨fun h => if_pos h, fun h1 h2 => ?_, fun h1 h2 h3 => ?_, fun h1 h2 h3 => ?_⟩
  · rw [if_neg (not_not.2 h1), if_pos h2]
  · rw [if_neg (not_not.2 h1), if_neg (not_not.2 h2)]
    cases first with
    | none => exact absurd rfl h3
    | some n => exact if_pos h3
  · rw [if_neg (not_not.2 h1), if_neg (not_not.2 h2)]
    cases first with
    | none => rfl
    | some n => exact if_neg (not_not.2 h3)

/-- Lines that pass every check leave the answer to the lines after them, held to the length already fixed (R89). -/
theorem checkLines_append (first : Option Nat) (before after : List Line)
    (h : ∀ k ∈ before, LineNumeric k ∧ LineLength k ∧
      (coreOf k).length = first.getD (coreOf ((before ++ after).headD [])).length) :
    checkLines first (before ++ after) =
      checkLines (if before = [] then first else some (first.getD (coreOf ((before ++ after).headD [])).length)) after := by
  induction before generalizing first with
  | nil => rfl
  | cons l ls ih =>
    obtain ⟨h1, h2, h3⟩ := h l (by simp)
    have hok : checkLine first l = .ok := (checkLine_eq first l).2.2.2 h1 h2 h3
    simp only [List.cons_append, checkLines, hok, reduceCtorEq, if_false, List.headD_cons]
    rw [ih]
    · simp
    · intro k hk
      have := h k (by simp [hk])
      simpa using this

end Sys2Proof.Machine
end

