-- ==== Sys2Proof/Laws/PerInstr.lean ====
section
/-! SUPPORT. Facts about each instruction as syntax, one lemma per constructor (LAWS.json). -/

namespace Sys2Proof.Laws.CanonicalWord

/-- R80, R93: the canonical word of a well-formed instruction has its opcode and operand as its decimal fields, and is a
word a six-digit program line can hold (R72). -/
def Statement (i : Instr) : Prop :=
  i.WellFormed → opcodeOf (encode i) = i.opcode ∧ operandOf (encode i) = i.operand ∧ (encode i).natAbs ≤ 999999

/-- The common argument: every opcode is below 1000. -/
theorem of_opcode {i : Instr} (ho : i.opcode ≤ 999) : Statement i := fun h =>
  have hf := hasFields_enc (o := i.opcode) h
  ⟨opcodeOf_fields hf, operandOf_fields hf, by
    have h' : i.operand ≤ 999 := h
    have : (encode i).natAbs = 1000 * i.opcode + i.operand := hf.1
    omega⟩

theorem read (a : Nat) : Statement (.read a) := of_opcode (by simp [Instr.opcode])
theorem write (a : Nat) : Statement (.write a) := of_opcode (by simp [Instr.opcode])
theorem load (a : Nat) : Statement (.load a) := of_opcode (by simp [Instr.opcode])
theorem store (a : Nat) : Statement (.store a) := of_opcode (by simp [Instr.opcode])
theorem add (a : Nat) : Statement (.add a) := of_opcode (by simp [Instr.opcode])
theorem subtract (a : Nat) : Statement (.subtract a) := of_opcode (by simp [Instr.opcode])
theorem divide (a : Nat) : Statement (.divide a) := of_opcode (by simp [Instr.opcode])
theorem multiply (a : Nat) : Statement (.multiply a) := of_opcode (by simp [Instr.opcode])
theorem branch (a : Nat) : Statement (.branch a) := of_opcode (by simp [Instr.opcode])
theorem branchneg (a : Nat) : Statement (.branchneg a) := of_opcode (by simp [Instr.opcode])
theorem branchzero (a : Nat) : Statement (.branchzero a) := of_opcode (by simp [Instr.opcode])
theorem halt (a : Nat) : Statement (.halt a) := of_opcode (by simp [Instr.opcode])

end Sys2Proof.Laws.CanonicalWord
end

