-- ==== Sys2Proof/Laws/Text.lean ====
section
/-! SUPPORT. Digits and their values: the lemmas by which the texts of R88, R127 and R131 are reasoned about. -/

namespace Sys2Proof.Machine

theorem isDigit_iff_mem {c : Char} : isDigit c = true ↔ c ∈ digitChars := by
  simp [isDigit]

theorem digitVal_lt {c : Char} (h : isDigit c = true) : digitVal c < 10 :=
  List.idxOf_lt_length_iff.2 (isDigit_iff_mem.1 h)

theorem isDigit_digitChar {d : Nat} (h : d < 10) : isDigit (digitChar d) = true := by
  revert d; decide

theorem digitVal_digitChar {d : Nat} (h : d < 10) : digitVal (digitChar d) = d := by
  revert d; decide

theorem digitChar_digitVal {c : Char} (h : isDigit c = true) : digitChar (digitVal c) = c := by
  rw [isDigit_iff_mem] at h
  revert h
  simp only [digitChars, List.mem_cons, List.not_mem_nil, or_false]
  rintro (rfl | rfl | rfl | rfl | rfl | rfl | rfl | rfl | rfl | rfl) <;> decide

/-- A digit is none of the other characters the grammars name (R85, R127). -/
theorem isDigit_ne {c : Char} (h : isDigit c = true) : c ≠ '-' ∧ c ≠ '+' ∧ c ≠ ' ' ∧ c ≠ '\t' := by
  rw [isDigit_iff_mem] at h
  revert h
  simp only [digitChars, List.mem_cons, List.not_mem_nil, or_false]
  rintro (rfl | rfl | rfl | rfl | rfl | rfl | rfl | rfl | rfl | rfl) <;> decide

theorem isBlank_iff {c : Char} : isBlank c = true ↔ c = ' ' ∨ c = '\t' := by
  simp [isBlank]

theorem digitsValueFrom_append (n : Nat) (xs ys : Line) :
    digitsValueFrom n (xs ++ ys) = digitsValueFrom (digitsValueFrom n xs) ys := by
  induction xs generalizing n with
  | nil => rfl
  | cons c cs ih => exact ih _

/-- A string of `k` digits after the value `n` stays below `(n + 1) * 10^k`. -/
theorem digitsValueFrom_lt {ds : Line} (h : ∀ c ∈ ds, isDigit c = true) (n : Nat) :
    digitsValueFrom n ds < (n + 1) * 10 ^ ds.length := by
  induction ds generalizing n with
  | nil => simp [digitsValueFrom]
  | cons c cs ih =>
    have hc := digitVal_lt (h c (by simp))
    have hrest := ih (fun d hd => h d (by simp [hd])) (10 * n + digitVal c)
    have hstep := Nat.mul_le_mul_right (10 ^ cs.length) (show 10 * n + digitVal c + 1 ≤ (n + 1) * 10 by omega)
    simp only [digitsValueFrom, List.length_cons, pow_succ]
    rw [show (n + 1) * (10 ^ cs.length * 10) = (n + 1) * 10 * 10 ^ cs.length by
      rw [Nat.mul_assoc, Nat.mul_comm 10]]
    omega

end Sys2Proof.Machine
end

