-- ==== Sys2Proof/Tests/Slice0.lean ====
section
/-! SUPPORT. The model's own tests.  Expected results are the spec's: the vector ids S, DE, LD, PI, DC, IO, LS, AR, CT, FA,
RS are those of 95_test_vectors.md.  Then one witness theorem for each statement that has hypotheses, at the values
where its clauses meet. -/

namespace Sys2Proof.Tests

open Sys2Proof Sys2Proof.Machine

/-! ### Helpers -/

/-- The next state of a result, if it is one. -/
def nextOf : Result → Option State
  | .next t => some t
  | .fault _ => none
  | .refused _ => none

/-- `pc`, `ACC` and STATUS after a step. -/
def seen (r : Result) : Option (Nat × Word × BitVec 8) := (nextOf r).map fun t => (t.pc, t.acc, t.status)

/-- One cell after a step. -/
def cellOf (r : Result) (a : Nat) : Option Word := (nextOf r).map fun t => t.cell a

/-- The output trace after a step. -/
def outOf (r : Result) : Option (List Line) := (nextOf r).map State.out

/-- Power-on, then `pc`, `ACC` and the listed cells. -/
def st (pc : Nat) (acc : Word) (cells : List (Nat × Word)) : State :=
  { State.reset with pc := pc, acc := acc, mem := cells }

/-- The same with CAP = 100 below BOUND = 250. -/
def stC (pc : Nat) (acc : Word) (cells : List (Nat × Word)) : State :=
  { State.powerOn { w := 64, cap := 100, bound := 250 } with pc := pc, acc := acc, mem := cells }

/-- READ 200 waiting for its line (IO1). -/
def waiting : State := { st 0 0 [(0, 10200)] with
  ir := 10200, irAtStart := some 0, runState := .waitInput, inpend := true }

/-- A waiting READ whose operand is past CAP (IO9). -/
def waitingC : State := { stC 0 0 [(0, 10150)] with
  ir := 10150, irAtStart := some 0, runState := .waitInput, inpend := true }

def halted : State := { st 250 0 [(6, 43000)] with ir := 43000, runState := .halted }

def faulted : State := { st 1 7 [(1, 32004)] with ir := 32004, runState := .faulted, cause := .divideByZero }

def line5 : Line := ['5']
def lineX : Line := ['x']

/-! ### WellFormed: the one check, on each side of its edge -/

theorem test_wellFormed_accepts_999 : (Instr.read 999).WellFormed ∧ (Instr.halt 0).WellFormed := by decide
theorem test_wellFormed_refuses_1000 : ¬ (Instr.read 1000).WellFormed ∧ ¬ (Instr.write 1000).WellFormed ∧
    ¬ (Instr.load 1000).WellFormed ∧ ¬ (Instr.store 1000).WellFormed ∧ ¬ (Instr.add 1000).WellFormed ∧
    ¬ (Instr.subtract 1000).WellFormed ∧ ¬ (Instr.divide 1000).WellFormed ∧ ¬ (Instr.multiply 1000).WellFormed ∧
    ¬ (Instr.branch 1000).WellFormed ∧ ¬ (Instr.branchneg 1000).WellFormed ∧ ¬ (Instr.branchzero 1000).WellFormed ∧
    ¬ (Instr.halt 1000).WellFormed := by decide
theorem test_config_wf : Config.default.wf ∧ ¬ ({ Config.default with w := 20 } : Config).wf ∧
    ¬ ({ Config.default with cap := 0 } : Config).wf ∧ ¬ ({ Config.default with bound := 0 } : Config).wf := by decide
theorem test_pcw_250 : Config.default.pcw = 8 := by decide

/-! ### Decode: each row of R80's canonical-word column, digit by digit -/

/-- The word written `d5 d4 d3 d2 d1 d0` in decimal. -/
def digits6 (d5 d4 d3 d2 d1 d0 : Nat) : Word :=
  (d5 * 100000 + d4 * 10000 + d3 * 1000 + d2 * 100 + d1 * 10 + d0 : Nat)

theorem test_decode_read : decode (digits6 0 1 0 0 0 7) = .instr (.read 7) := by decide
theorem test_decode_write : decode (digits6 0 1 1 0 0 9) = .instr (.write 9) := by decide
theorem test_decode_load : decode (digits6 0 2 0 2 4 9) = .instr (.load 249) := by decide
theorem test_decode_store : decode (digits6 0 2 1 0 1 3) = .instr (.store 13) := by decide
theorem test_decode_add : decode (digits6 0 3 0 0 2 0) = .instr (.add 20) := by decide
theorem test_decode_subtract : decode (digits6 0 3 1 0 5 6) = .instr (.subtract 56) := by decide
theorem test_decode_divide : decode (digits6 0 3 2 1 5 0) = .instr (.divide 150) := by decide
theorem test_decode_multiply : decode (digits6 0 3 3 0 3 1) = .instr (.multiply 31) := by decide
theorem test_decode_branch : decode (digits6 0 4 0 0 1 7) = .instr (.branch 17) := by decide
theorem test_decode_branchneg : decode (digits6 0 4 1 0 2 0) = .instr (.branchneg 20) := by decide
theorem test_decode_branchzero : decode (digits6 0 4 2 0 0 2) = .instr (.branchzero 2) := by decide
theorem test_decode_halt : decode (digits6 0 4 3 9 9 9) = .instr (.halt 999) := by decide

/-- DE2, DE4: the sign is ignored. -/
theorem test_decode_negative : decode (-10007) = .instr (.read 7) ∧ decode (-43000) = .instr (.halt 0) := by decide

/-- DE9, DE10, DE11, DE12, DE14, DE17 and R82: invalid words, the magnitude of the least word exact. -/
theorem test_decode_invalid : decode 100007 = .undefinedOpcode 100 ∧ decode 0 = .undefinedOpcode 0 ∧
    decode 5 = .undefinedOpcode 0 ∧ decode 44000 = .undefinedOpcode 44 ∧ decode 19100 = .undefinedOpcode 19 ∧
    decode (-9223372036854775808) = .undefinedOpcode 9223372036854775 ∧
    operandOf (-9223372036854775808) = 808 := by decide

/-- The bits of 10007, and those of -10007 in 64 bits (R11). -/
theorem test_decodeTableWord : decodeTableWord 16 0b0010011100010111 = some (.read 7) ∧
    decodeTableWord 64 0xFFFFFFFFFFFFD8E9 = some (.read 7) ∧ decodeTableWord 16 0 = none := by decide

/-- `withFetchWord` makes the next step after reset run the word. -/
theorem test_withFetchWord_runs : seen (step (State.reset.withFetchWord 16 20000)) = some (1, 20000, 0x00#8) := by
  decide

/-! ### One step of each instruction -/

/-- S9: the line is there. -/
theorem test_read_stores : cellOf (step { st 0 9 [(0, 10200)] with inputs := [line5] }) 200 = some 5 := by decide

/-- IO1: it is not. -/
theorem test_read_waits : seen (step (st 0 9 [(0, 10200)])) = some (0, 9, 0x02#8) := by decide

/-- S10. -/
theorem test_read_invalid_input :
    seen (step { st 0 9 [(0, 10200), (200, 77)] with inputs := [lineX] }) = some (0, 9, 0x34#8) := by decide

/-- IO10, FA4: the parse comes before the range check; IO9: a parsed line then faults on the range. -/
theorem test_read_parse_before_range :
    seen (step { waitingC with hostq := [.inResp lineX] }) = some (0, 0, 0x34#8) ∧
    seen (step { waitingC with hostq := [.inResp line5] }) = some (0, 0, 0x64#8) := by decide

/-- IO2, with a STEP that has to wait queued before the line (R113). -/
theorem test_waiting_read_resumes :
    (nextOf (step { waiting with hostq := [.step, .inResp line5] })).map (fun t => (t.cell 200, t.pc, t.hostq)) =
      some (5, 1, [.step]) := by decide

/-- S11. -/
theorem test_write_positive : outOf (step (st 0 0 [(0, 11009), (9, 9007)])) =
    some [['O', 'u', 't', 'p', 'u', 't', ':', ' ', '9', '0', '0', '7']] := by decide

/-- IO12. -/
theorem test_write_negative : outOf (step (st 0 0 [(0, 11009), (9, -18)])) =
    some [['O', 'u', 't', 'p', 'u', 't', ':', ' ', '-', '1', '8']] := by decide

/-- LS1 and LS10. -/
theorem test_load_keeps_sign : seen (step (st 0 7 [(0, 20012), (12, -40)])) = some (1, -40, 0x00#8) := by decide

/-- CT16: running off the end halts with no line. -/
theorem test_load_at_last_address : seen (step (st 249 5 [(249, 20000)])) = some (250, 0, 0x03#8) ∧
    outOf (step (st 249 5 [(249, 20000)])) = some [] := by decide

/-- LS3. -/
theorem test_store : cellOf (step (st 0 (-40) [(0, 21013)])) 13 = some (-40) := by decide

/-- LS5: STORE over itself with 0; memory stays in its canonical form. -/
theorem test_store_itself : (nextOf (step (st 4 0 [(4, 21004)]))).map (fun t => (t.mem, t.pc)) = some ([], 5) := by
  decide

/-- AR1 and AR5. -/
theorem test_add : seen (step (st 0 5 [(0, 30020), (20, -8)])) = some (1, -3, 0x00#8) ∧
    seen (step (st 0 (-9223372036854775808) [(0, 30020), (20, 9223372036854775807)])) = some (1, -1, 0x00#8) := by
  decide

/-- AR3, AR4. -/
theorem test_add_overflows :
    seen (step (st 0 9223372036854775807 [(0, 30020), (20, 1)])) = some (0, 9223372036854775807, 0x54#8) ∧
    seen (step (st 0 (-9223372036854775808) [(0, 30020), (20, -1)])) =
      some (0, -9223372036854775808, 0x54#8) := by decide

/-- AR6 (S1) and AR7: the order is `ACC - M[a]`. -/
theorem test_subtract : seen (step (st 0 10045 [(0, 31056), (56, 1234)])) = some (1, 8811, 0x00#8) ∧
    seen (step (st 0 3 [(0, 31020), (20, 10)])) = some (1, -7, 0x00#8) := by decide

/-- AR8, AR9. -/
theorem test_subtract_edges :
    seen (step (st 0 0 [(0, 31020), (20, -9223372036854775808)])) = some (0, 0, 0x54#8) ∧
    seen (step (st 0 (-1) [(0, 31020), (20, -9223372036854775808)])) = some (1, 9223372036854775807, 0x00#8) := by
  decide

/-- AR12, AR13, AR14: truncation toward zero. -/
theorem test_divide_truncates : seen (step (st 0 (-7) [(0, 32020), (20, 2)])) = some (1, -3, 0x00#8) ∧
    seen (step (st 0 7 [(0, 32020), (20, -2)])) = some (1, -3, 0x00#8) ∧
    seen (step (st 0 (-7) [(0, 32020), (20, -2)])) = some (1, 3, 0x00#8) := by decide

/-- AR17, AR19, AR33: divide by zero, the one overflow, and the range check before both. -/
theorem test_divide_faults : seen (step (st 0 5 [(0, 32020)])) = some (0, 5, 0x44#8) ∧
    seen (step (st 0 (-9223372036854775808) [(0, 32020), (20, -1)])) =
      some (0, -9223372036854775808, 0x54#8) ∧
    seen (step (stC 0 5 [(0, 32150)])) = some (0, 5, 0x64#8) := by decide

/-- AR23, AR24. -/
theorem test_multiply : seen (step (st 0 (-3) [(0, 33020), (20, 4)])) = some (1, -12, 0x00#8) ∧
    seen (step (st 0 (-3) [(0, 33020), (20, -4)])) = some (1, 12, 0x00#8) := by decide

/-- AR27, AR28. -/
theorem test_multiply_edges : seen (step (st 0 (2 ^ 31) [(0, 33020), (20, 2 ^ 32)])) = some (0, 2 ^ 31, 0x54#8) ∧
    seen (step (st 0 (-2 ^ 31) [(0, 33020), (20, 2 ^ 32)])) = some (1, -9223372036854775808, 0x00#8) := by decide

/-- CT1, CT3. -/
theorem test_branch : seen (step (st 3 0 [(3, 40017)])) = some (17, 0, 0x00#8) ∧
    seen (step (st 3 0 [(3, 40250)])) = some (3, 0, 0x14#8) := by decide

/-- CT4, CT5, CT6, CT8. -/
theorem test_branchneg : seen (step (st 4 (-5) [(4, 41020)])) = some (20, -5, 0x00#8) ∧
    seen (step (st 4 10 [(4, 41020)])) = some (4, 10, 0x00#8) ∧
    seen (step (st 4 0 [(4, 41020)])) = some (4, 0, 0x00#8) ∧
    seen (step (st 4 10 [(4, 41250)])) = some (4, 10, 0x14#8) := by decide

/-- CT9, CT10, CT11. -/
theorem test_branchzero : seen (step (st 6 0 [(6, 42002)])) = some (2, 0, 0x00#8) ∧
    seen (step (st 6 3 [(6, 42002)])) = some (6, 3, 0x00#8) ∧
    seen (step (st 6 (-1) [(6, 42002)])) = some (6, -1, 0x00#8) := by decide

/-- CT12, CT14 (DE7). -/
theorem test_halt : seen (step (st 6 0 [(6, 43000)])) = some (250, 0, 0x03#8) ∧
    outOf (step (st 6 0 [(6, 43000)])) = some ["Program finished".toList] ∧
    seen (step (st 6 0 [(6, 43250)])) = some (6, 0, 0x14#8) := by decide

/-- S8 (FA8), DE8 (FA1): the invalid opcode, and the address check before it. -/
theorem test_invalid_words : seen (step (st 0 9 [(0, 50001)])) = some (0, 9, 0x24#8) ∧
    seen (step (st 0 9 [(0, 999999)])) = some (0, 9, 0x14#8) := by decide

/-- CT18's second step: a fetch past CAP. -/
theorem test_fetch_past_cap :
    (nextOf (step { stC 150 5 [(0, 40150)] with ir := 40150 })).map (fun t => (t.ir, t.status, t.faultAddress)) =
      some (40150, 0x64#8, some 150) := by decide

/-! ### Loader and text -/

/-- LD1, LD2, LD6, LD8: words of lines. -/
theorem test_lineWord : lineWord ['1', '0', '0', '7'] = 10007 ∧ lineWord ['-', '1', '0', '0', '7'] = -10007 ∧
    lineWord ['1', '2', '3', '4'] = 12034 ∧ lineWord ['9', '9', '9', '9', '9', '9'] = 999999 := by decide

/-- LD10, LD13, LD15, LD17, LD18, LD19. -/
theorem test_load_codes : checkProgram 250 [[]] = .badLength ∧
    checkProgram 250 [['+', '-', '1', '2', '3', '4']] = .notNumeric ∧
    checkProgram 250 [['1', '0', '0', '7'], ['0', '1', '0', '0', '0', '8']] = .lengthMismatch ∧
    checkProgram 250 [['1', '0', '0', '7'], ['1', '2', '3', '4', '5']] = .badLength ∧
    checkProgram 250 [['1', '0', '0', '7'], ['1', '2', 'a', '4', '5']] = .notNumeric ∧
    checkProgram 250 [['1', '2', '3', '4', '5'], ['1', 'a']] = .badLength ∧
    checkProgram 1 [[], []] = .imageTooLarge := by decide

/-- LD23, LD24: the rest of memory is cleared; BUSY while a READ waits. -/
theorem test_load_program :
    (nextOf (step { st 3 9 [(0, 5), (249, 5)] with hostq := [.loadProgram [['1', '0', '0', '7']]] })).map
      (fun t => (t.mem, t.pc, t.acc, t.replies)) = some ([(0, 10007)], 3, 9, [.load .ok]) ∧
    (nextOf (step { waiting with hostq := [.loadProgram [['1', '0', '0', '7']]] })).map
      (fun t => (t.mem, t.replies)) = some ([(0, 10200)], [.load .busy]) := by decide

/-- IO17 and the two other answers of HostRead. -/
theorem test_hostRead :
    (nextOf (step { waiting with hostq := [.hostRead 0] })).map State.replies = some [.readBusy] ∧
    (nextOf (step { halted with hostq := [.hostRead 6] })).map State.replies = some [.word 43000] ∧
    nextOf (step { halted with hostq := [.hostRead 250] }) = none := by decide

/-- R32: the registers are read at any time; during a step `IR` as it was at its start, after it the word it fetched. -/
theorem test_readRegs : (nextOf (step { waiting with hostq := [.readRegs], irAtStart := some 43000 })).map
      State.replies = some [.regs 0 0 43000 0x02#8] ∧
    (nextOf (step { faulted with hostq := [.readRegs] })).map State.replies = some [.regs 1 7 32004 0x44#8] := by decide

/-- R32: the value the host goes on reading is the one `IR` held before the READ's fetch, and the end of the step gives
it up. -/
theorem test_irAtStart : (nextOf (step { st 0 9 [(0, 10200)] with ir := 77 })).map State.irSeen = some 77 ∧
    (nextOf (step { waiting with hostq := [.inResp line5] })).map State.irSeen = some 10200 := by decide

/-- PI3, PI5, PI6, PI8, PI9, PI15, PI17. -/
theorem test_parseInt : parseInt Config.default [' ', '-', '1', '2', ' '] = some (-12) ∧
    parseInt Config.default ['\t', '8'] = some 8 ∧ parseInt Config.default ['-', '0'] = some 0 ∧
    parseInt Config.default ('-' :: decNat 9223372036854775808) = some (-9223372036854775808) ∧
    parseInt Config.default (decNat 9223372036854775808) = none ∧
    parseInt Config.default ['1', ' ', '0', '0', '0'] = none ∧ parseInt Config.default ['+'] = none := by decide

/-- DC2, DC3, DC5. -/
theorem test_dec : dec (-5) = ['-', '5'] ∧ dec 0 = ['0'] ∧
    dec (-9223372036854775808) = ['-', '9', '2', '2', '3', '3', '7', '2', '0', '3', '6', '8', '5', '4', '7', '7', '5',
      '8', '0', '8'] := by decide

/-- FA6, RS2, CT19, FA5: RESET, and a STEP that has no effect. -/
theorem test_reset_and_dead_states :
    nextOf (step { faulted with hostq := [.reset] }) = some (st 0 0 [(1, 32004)]) ∧
    nextOf (step halted) = some halted ∧ nextOf (step faulted) = some faulted := by decide

/-! ### Witnesses: states that meet each statement's hypotheses -/

theorem witness_inv_reset : State.reset.Inv := by
  refine ⟨?_, ?_, ?_, ?_, ?_, ?_, ?_, ?_, ?_, ?_, ?_, ?_, ?_⟩ <;> decide
theorem witness_inv_waiting : waiting.Inv := by
  refine ⟨?_, ?_, ?_, ?_, ?_, ?_, ?_, ?_, ?_, ?_, ?_, ?_, ?_⟩ <;> decide
theorem witness_inv_waitingC : waitingC.Inv := by
  refine ⟨?_, ?_, ?_, ?_, ?_, ?_, ?_, ?_, ?_, ?_, ?_, ?_, ?_⟩ <;> decide
theorem witness_inv_halted : halted.Inv := by
  refine ⟨?_, ?_, ?_, ?_, ?_, ?_, ?_, ?_, ?_, ?_, ?_, ?_, ?_⟩ <;> decide
theorem witness_inv_faulted : faulted.Inv := by
  refine ⟨?_, ?_, ?_, ?_, ?_, ?_, ?_, ?_, ?_, ?_, ?_, ?_, ?_⟩ <;> decide
/-- A state about to run the STORE at 0, and one about to raise each address fault. -/
theorem witness_inv_store : (st 0 9 [(0, 21013)]).Inv := by
  refine ⟨?_, ?_, ?_, ?_, ?_, ?_, ?_, ?_, ?_, ?_, ?_, ?_, ?_⟩ <;> decide
theorem witness_inv_read : (st 0 9 [(0, 10249)]).Inv := by
  refine ⟨?_, ?_, ?_, ?_, ?_, ?_, ?_, ?_, ?_, ?_, ?_, ?_, ?_⟩ <;> decide
theorem witness_inv_address : (st 0 9 [(0, 21250)]).Inv := by
  refine ⟨?_, ?_, ?_, ?_, ?_, ?_, ?_, ?_, ?_, ?_, ?_, ?_, ?_⟩ <;> decide
theorem witness_inv_range : (stC 100 9 []).Inv := by
  refine ⟨?_, ?_, ?_, ?_, ?_, ?_, ?_, ?_, ?_, ?_, ?_, ?_, ?_⟩ <;> decide
theorem witness_inv_dataRange : (stC 0 9 [(0, 20100)]).Inv := by
  refine ⟨?_, ?_, ?_, ?_, ?_, ?_, ?_, ?_, ?_, ?_, ?_, ?_, ?_⟩ <;> decide

theorem witness_StepRunsDecodedInstruction : Fetches (st 0 0 [(0, -20249)]) (-20249) ∧
    decode (-20249) = .instr (.load 249) ∧ (Instr.load 249).operand < (st 0 0 [(0, -20249)]).cfg.bound ∧
    Fetches { st 0 0 [(0, 20000)] with hostq := [.step, .reset] } 20000 := by decide

theorem witness_FetchBeyondCapacityFaults : StepIsNext (stC 100 0 []) ∧ (stC 100 0 []).runState = .ready ∧
    (stC 100 0 []).cfg.cap ≤ (stC 100 0 []).pc := by decide

theorem witness_AddressCheckPrecedesDispatch : Fetches (st 0 0 [(0, -999250)]) (-999250) ∧
    HasFields (-999250) 999 250 ∧ (st 0 0 [(0, -999250)]).cfg.bound ≤ 250 := by decide

theorem witness_UndefinedOpcodeFaults : Fetches (st 0 0 [(0, 44249)]) 44249 ∧ HasFields 44249 44 249 ∧
    249 < (st 0 0 [(0, 44249)]).cfg.bound ∧ 44 ∉ [10, 11, 20, 21, 30, 31, 32, 33, 40, 41, 42, 43] := by decide

/-- For each of READ's five clauses in turn. -/
theorem witness_ReadRule :
    (Fetches (st 0 0 [(0, 10250)]) 10250 ∧ HasFields 10250 10 250 ∧ (st 0 0 [(0, 10250)]).cfg.bound ≤ 250) ∧
    (Fetches (st 0 0 [(0, 10249)]) 10249 ∧ HasFields 10249 10 249 ∧ (st 0 0 [(0, 10249)]).inputs = []) ∧
    (Fetches { st 0 0 [(0, 10249)] with inputs := [lineX] } 10249 ∧ parseInt Config.default lineX = none) ∧
    (Fetches { stC 0 0 [(0, 10100)] with inputs := [line5] } 10100 ∧ HasFields 10100 10 100 ∧
      parseInt (stC 0 0 []).cfg line5 = some 5 ∧ (stC 0 0 []).cfg.cap ≤ 100) ∧
    (Fetches { stC 0 0 [(0, 10099)] with inputs := [line5] } 10099 ∧ HasFields 10099 10 99 ∧
      99 < (stC 0 0 []).cfg.cap) := by decide

/-! The rules with an address check and a range check: operand at BOUND, at CAP, and below CAP. -/

theorem witness_WriteRule :
    (Fetches (st 0 0 [(0, 11250)]) 11250 ∧ HasFields 11250 11 250) ∧
    (Fetches (stC 0 0 [(0, 11100)]) 11100 ∧ HasFields 11100 11 100) ∧
    (Fetches (stC 0 0 [(0, 11099)]) 11099 ∧ HasFields 11099 11 99) := by decide

theorem witness_LoadRule :
    (Fetches (st 0 0 [(0, 20250)]) 20250 ∧ HasFields 20250 20 250) ∧
    (Fetches (stC 0 0 [(0, 20100)]) 20100 ∧ HasFields 20100 20 100) ∧
    (Fetches (stC 0 0 [(0, 20099)]) 20099 ∧ HasFields 20099 20 99) := by decide

theorem witness_StoreRule :
    (Fetches (st 0 0 [(0, 21250)]) 21250 ∧ HasFields 21250 21 250) ∧
    (Fetches (stC 0 0 [(0, 21100)]) 21100 ∧ HasFields 21100 21 100) ∧
    (Fetches (stC 0 0 [(0, 21099)]) 21099 ∧ HasFields 21099 21 99) := by decide

/-! The same for the arithmetic rules, and their result just outside and just inside the range. -/

theorem witness_AddRule :
    (Fetches (st 0 0 [(0, 30250)]) 30250 ∧ HasFields 30250 30 250) ∧
    (Fetches (stC 0 0 [(0, 30100)]) 30100 ∧ HasFields 30100 30 100) ∧
    (Fetches (st 0 (1) [(0, 30020), (20, 9223372036854775807)]) 30020 ∧ HasFields 30020 30 20 ∧
      ¬ InRange Config.default ((st 0 (1) [(0, 30020), (20, 9223372036854775807)]).acc + (st 0 (1) [(0, 30020), (20, 9223372036854775807)]).cell 20)) ∧
    (Fetches (st 0 (0) [(0, 30020), (20, 9223372036854775807)]) 30020 ∧
      InRange Config.default ((st 0 (0) [(0, 30020), (20, 9223372036854775807)]).acc + (st 0 (0) [(0, 30020), (20, 9223372036854775807)]).cell 20)) := by decide

theorem witness_SubtractRule :
    (Fetches (st 0 0 [(0, 31250)]) 31250 ∧ HasFields 31250 31 250) ∧
    (Fetches (stC 0 0 [(0, 31100)]) 31100 ∧ HasFields 31100 31 100) ∧
    (Fetches (st 0 (0) [(0, 31020), (20, -9223372036854775808)]) 31020 ∧ HasFields 31020 31 20 ∧
      ¬ InRange Config.default ((st 0 (0) [(0, 31020), (20, -9223372036854775808)]).acc - (st 0 (0) [(0, 31020), (20, -9223372036854775808)]).cell 20)) ∧
    (Fetches (st 0 (-1) [(0, 31020), (20, -9223372036854775808)]) 31020 ∧
      InRange Config.default ((st 0 (-1) [(0, 31020), (20, -9223372036854775808)]).acc - (st 0 (-1) [(0, 31020), (20, -9223372036854775808)]).cell 20)) := by decide

theorem witness_MultiplyRule :
    (Fetches (st 0 0 [(0, 33250)]) 33250 ∧ HasFields 33250 33 250) ∧
    (Fetches (stC 0 0 [(0, 33100)]) 33100 ∧ HasFields 33100 33 100) ∧
    (Fetches (st 0 (2147483648) [(0, 33020), (20, 4294967296)]) 33020 ∧ HasFields 33020 33 20 ∧
      ¬ InRange Config.default ((st 0 (2147483648) [(0, 33020), (20, 4294967296)]).acc * (st 0 (2147483648) [(0, 33020), (20, 4294967296)]).cell 20)) ∧
    (Fetches (st 0 (-2147483648) [(0, 33020), (20, 4294967296)]) 33020 ∧
      InRange Config.default ((st 0 (-2147483648) [(0, 33020), (20, 4294967296)]).acc * (st 0 (-2147483648) [(0, 33020), (20, 4294967296)]).cell 20)) := by decide

theorem witness_DivideRule :
    (Fetches (st 0 0 [(0, 32250)]) 32250 ∧ HasFields 32250 32 250) ∧
    (Fetches (stC 0 0 [(0, 32100)]) 32100 ∧ HasFields 32100 32 100) ∧
    (Fetches (st 0 1 [(0, 32020)]) 32020 ∧ HasFields 32020 32 20 ∧ (st 0 1 [(0, 32020)]).cell 20 = 0) ∧
    (Fetches (st 0 (-9223372036854775808) [(0, 32020), (20, -1)]) 32020 ∧ (st 0 (-9223372036854775808) [(0, 32020), (20, -1)]).cell 20 ≠ 0 ∧
      ¬ InRange Config.default ((st 0 (-9223372036854775808) [(0, 32020), (20, -1)]).acc.tdiv ((st 0 (-9223372036854775808) [(0, 32020), (20, -1)]).cell 20))) ∧
    (Fetches (st 0 (-9223372036854775807) [(0, 32020), (20, -1)]) 32020 ∧ (st 0 (-9223372036854775807) [(0, 32020), (20, -1)]).cell 20 ≠ 0 ∧
      InRange Config.default ((st 0 (-9223372036854775807) [(0, 32020), (20, -1)]).acc.tdiv ((st 0 (-9223372036854775807) [(0, 32020), (20, -1)]).cell 20))) := by decide

/-! The control rules: the operand on each side of BOUND, and each condition with the PC just below BOUND. -/

theorem witness_BranchRule :
    (Fetches (st 3 0 [(3, 40250)]) 40250 ∧ HasFields 40250 40 250) ∧
    (Fetches (st 3 0 [(3, 40249)]) 40249 ∧ HasFields 40249 40 249) := by decide

theorem witness_BranchnegRule : 249 < Config.default.bound ∧
    (Fetches (st 249 0 [(249, 41250)]) 41250 ∧ HasFields 41250 41 250) ∧
    (Fetches (st 249 (-1) [(249, 41249)]) 41249 ∧ HasFields 41249 41 249 ∧ (st 249 (-1) [(249, 41249)]).acc < 0) ∧
    (Fetches (st 249 0 [(249, 41249)]) 41249 ∧ 0 ≤ (st 249 0 [(249, 41249)]).acc) := by decide

theorem witness_BranchzeroRule : 249 < Config.default.bound ∧
    (Fetches (st 249 0 [(249, 42250)]) 42250 ∧ HasFields 42250 42 250) ∧
    (Fetches (st 249 0 [(249, 42249)]) 42249 ∧ HasFields 42249 42 249 ∧ (st 249 0 [(249, 42249)]).acc = 0) ∧
    (Fetches (st 249 (-1) [(249, 42249)]) 42249 ∧ (st 249 (-1) [(249, 42249)]).acc ≠ 0) := by decide

theorem witness_HaltRule :
    (Fetches (st 6 0 [(6, 43250)]) 43250 ∧ HasFields 43250 43 250) ∧
    (Fetches (st 6 0 [(6, 43249)]) 43249 ∧ HasFields 43249 43 249) := by decide

theorem witness_LoadStoreWriteComplete : 249 < State.reset.cfg.cap := by decide

theorem witness_ArithmeticCompletes :
    249 < (st 0 (-7) [(249, 2)]).cfg.cap ∧
    InRange (st 0 (-7) [(249, 2)]).cfg ((st 0 (-7) [(249, 2)]).acc + (st 0 (-7) [(249, 2)]).cell 249) ∧
    InRange (st 0 (-7) [(249, 2)]).cfg ((st 0 (-7) [(249, 2)]).acc - (st 0 (-7) [(249, 2)]).cell 249) ∧
    (st 0 (-7) [(249, 2)]).cell 249 ≠ 0 ∧
    InRange (st 0 (-7) [(249, 2)]).cfg ((st 0 (-7) [(249, 2)]).acc.tdiv ((st 0 (-7) [(249, 2)]).cell 249)) ∧
    InRange (st 0 (-7) [(249, 2)]).cfg ((st 0 (-7) [(249, 2)]).acc * (st 0 (-7) [(249, 2)]).cell 249) := by decide

theorem witness_ControlCompletes : (st 4 (-5) []).acc < 0 ∧ 0 ≤ (st 4 0 []).acc ∧ (st 4 0 []).acc = 0 ∧
    (st 4 (-5) []).acc ≠ 0 := by decide

theorem witness_ReadCompletes : ({ st 0 0 [] with inputs := [line5] } : State).inputs = line5 :: [] ∧
    parseInt Config.default line5 = some 5 ∧ 249 < Config.default.cap := by decide

/-- A next state that is a commit and one that is a fault, for the frame of the accumulator instructions. -/
theorem witness_AccumulatorInstructionsFrame :
    (∃ t, exec (.add 20) (st 0 5 [(20, -8)]) = .next t ∧ t.runState ≠ .faulted) ∧
    (∃ t, exec (.divide 20) (st 0 5 []) = .next t ∧ t.runState = .faulted) :=
  ⟨⟨_, rfl, by decide⟩, ⟨_, rfl, rfl⟩⟩

theorem witness_StoringInstructionsFrame :
    (∃ t, exec (.store 13) (st 0 5 []) = .next t ∧ t.runState ≠ .faulted) ∧
    (∃ t, exec (.read 13) (st 0 5 []) = .next t ∧ t.runState = .waitInput) ∧
    (∃ t, exec (.read 100) { stC 0 5 [] with inputs := [line5] } = .next t ∧ t.runState = .faulted) :=
  ⟨⟨_, rfl, by decide⟩, ⟨_, rfl, rfl⟩, ⟨_, rfl, by decide⟩⟩

theorem witness_ControlAndOutputFrame :
    (∃ t, exec (.branchneg 13) (st 0 5 []) = .next t ∧ t.runState ≠ .faulted) ∧
    (∃ t, exec (.write 100) (stC 0 5 []) = .next t ∧ t.runState = .faulted) :=
  ⟨⟨_, rfl, by decide⟩, ⟨_, rfl, rfl⟩⟩

theorem witness_ResumedReadFrame :
    (waiting.runState = .waitInput ∧ waiting.inpend = true) ∧
    (∃ t, step { waiting with hostq := [.inResp line5] } = .next t ∧ t.runState ≠ .faulted) ∧
    (∃ t, step { waiting with inputs := [lineX] } = .next t ∧ t.runState = .faulted) :=
  ⟨by decide, ⟨_, rfl, by decide⟩, ⟨_, rfl, by decide⟩⟩

theorem witness_InputHandshake : (st 0 0 []).inputs = [] ∧ waiting.runState = .waitInput ∧ waiting.inputs = [] ∧
    waiting.inpend = true ∧ (∀ e ∈ ({ waiting with hostq := [.step] } : State).hostq, e = .step) ∧
    parseInt waiting.cfg lineX = none ∧ parseInt waiting.cfg line5 = some 5 ∧
    operandOf waiting.ir < waiting.cfg.cap ∧ waitingC.cfg.cap ≤ operandOf waitingC.ir := by decide

/-- The delivery at the edge of CAP: operand 100, and operand 99. -/
theorem witness_InputHandshake_at_CAP :
    parseInt (stC 0 0 []).cfg line5 = some 5 ∧ operandOf 10100 = 100 ∧ operandOf 10099 = 99 ∧
    (stC 0 0 []).cfg.cap ≤ operandOf { waitingC with ir := 10100 }.ir ∧
    operandOf { waitingC with ir := 10099 }.ir < (stC 0 0 []).cfg.cap ∧
    seen (step { waitingC with ir := 10100, hostq := [.inResp line5] }) = some (0, 0, 0x64#8) ∧
    seen (step { waitingC with ir := 10099, hostq := [.inResp line5] }) = some (1, 0, 0x00#8) := by decide

theorem witness_UnrequestedLineIgnored : ({ State.reset with hostq := [.inResp line5] } : State).inpend = false := by
  decide

/-- With no STEP pending and with two. -/
theorem witness_PendingStepsWaitForTheRead : waiting.inpend = true ∧ waiting.runState = .waitInput ∧
    ([.step, .step, .inResp line5] : List HostEvent) = List.replicate 2 .step ++ .inResp line5 :: [] ∧
    ([.inResp line5] : List HostEvent) = List.replicate 0 .step ++ .inResp line5 :: [] :=
  ⟨rfl, rfl, rfl, rfl⟩

theorem witness_HaltedAndFaultedLeftOnlyByReset : halted.runState = .halted ∧ faulted.runState = .faulted ∧
    halted.inpend = false ∧ faulted.inpend = false ∧ StepIsNext halted ∧
    StepIsNext { faulted with hostq := [.step] } ∧
    (∃ t, step { halted with hostq := [.hostRead 0] } = .next t) ∧
    ([HostEvent.hostRead 0].head? ≠ some .reset) :=
  ⟨rfl, rfl, rfl, rfl, by decide, by decide, ⟨_, rfl⟩, by decide⟩

theorem witness_ResetTransaction :
    ({ waiting with hostq := [.reset, .inResp line5] } : State).hostq = .reset :: .inResp line5 :: [] := by decide

theorem witness_PowerOnMeetsInvariant : Config.default.wf ∧ ({ w := 21, cap := 1, bound := 1 } : Config).wf := by
  decide

/-- States of the invariant in each STATE a run can be in, each with a next state. -/
theorem witness_StepKeepsInvariant_StateTransitions : State.reset.Inv ∧ waiting.Inv ∧ halted.Inv ∧ faulted.Inv ∧
    (∃ t, step State.reset = .next t) ∧ (∃ t, step { waiting with inputs := [line5] } = .next t) ∧
    (∃ t, step { faulted with hostq := [.reset] } = .next t ∧ t.runState = .ready) :=
  ⟨witness_inv_reset, witness_inv_waiting, witness_inv_halted, witness_inv_faulted, ⟨_, rfl⟩, ⟨_, rfl⟩, ⟨_, rfl, rfl⟩⟩

theorem witness_FaultsArePrecise : State.reset.runState ≠ .faulted ∧
    ∃ t, step State.reset = .next t ∧ t.runState = .faulted :=
  ⟨by decide, _, rfl, rfl⟩

/-- HostRead of the last cell, of the first that does not exist, and while a step is in progress. -/
theorem witness_StepStopsOnlyAtHostReadOutside :
    (State.reset.inProgress = false ∧ 249 < State.reset.cfg.cap ∧ State.reset.cfg.cap ≤ 250) ∧
    waiting.inProgress = true ∧ ({ waiting with hostq := [.hostRead 250] } : State).hostq = .hostRead 250 :: [] := by
  decide

/-- INVALID_ADDRESS, MEMORY_RANGE of the fetch, MEMORY_RANGE of a data access, the same of a READ that waited, and
INVALID_INSTRUCTION. -/
theorem witness_FaultAddressIsRecovered :
    ((st 0 9 [(0, 21250)]).Inv ∧ ∃ t, step (st 0 9 [(0, 21250)]) = .next t ∧ t.cause = .invalidAddress) ∧
    ((stC 100 9 []).Inv ∧ ∃ t, step (stC 100 9 []) = .next t ∧ t.cause = .memoryRange) ∧
    ((stC 0 9 [(0, 20100)]).Inv ∧ ∃ t, step (stC 0 9 [(0, 20100)]) = .next t ∧ t.cause = .memoryRange) ∧
    (waitingC.Inv ∧ ∃ t, step { waitingC with inputs := [line5] } = .next t ∧ t.cause = .memoryRange) ∧
    (State.reset.Inv ∧ ∃ t, step State.reset = .next t ∧ t.cause = .invalidInstruction) :=
  ⟨⟨witness_inv_address, _, rfl, rfl⟩, ⟨witness_inv_range, _, rfl, rfl⟩, ⟨witness_inv_dataRange, _, rfl, rfl⟩,
    ⟨witness_inv_waitingC, _, rfl, rfl⟩, ⟨witness_inv_reset, _, rfl, rfl⟩⟩

theorem witness_OutputLinesAreOfTwoKinds :
    (∃ t, step (st 0 0 [(0, 11009)]) = .next t ∧ t.out ≠ []) ∧
    (∃ t, step (st 0 0 [(0, 43000)]) = .next t ∧ t.out ≠ []) :=
  ⟨⟨_, rfl, by decide⟩, ⟨_, rfl, by decide⟩⟩

/-- A cell changed by STORE, and one changed by a load. -/
theorem witness_MemoryWriters :
    ((st 0 9 [(0, 21013)]).Inv ∧ ∃ t, step (st 0 9 [(0, 21013)]) = .next t ∧ t.cell 13 ≠ (st 0 9 [(0, 21013)]).cell 13) ∧
    (halted.Inv ∧ ∃ t, step { halted with hostq := [.loadProgram []] } = .next t ∧ t.cell 6 ≠ halted.cell 6) :=
  ⟨⟨witness_inv_store, _, rfl, by decide⟩, ⟨witness_inv_halted, _, rfl, by decide⟩⟩

theorem witness_AccumulatorWriters :
    (∃ t, step (st 0 9 [(0, 20013)]) = .next t ∧ t.acc ≠ 9) ∧
    (∃ t, step { st 0 9 [] with hostq := [.reset] } = .next t ∧ t.acc ≠ 9) :=
  ⟨⟨_, rfl, by decide⟩, ⟨_, rfl, by decide⟩⟩

theorem witness_OnlyTheOperandCellIsRead : (st 0 5 [(20, -8)]).mem.wf ∧ Memory.wf [(3, 1), (20, -8)] ∧
    Memory.read [(3, 1), (20, -8)] (Instr.add 20).operand = (st 0 5 [(20, -8)]).cell (Instr.add 20).operand ∧
    ∃ t, exec (.add 20) (st 0 5 [(20, -8)]) = .next t :=
  ⟨by decide, by decide, by decide, _, rfl⟩

/-- S12, and a copy onto the STORE's own address. -/
theorem witness_CopyLaw : (st 0 9 [(0, 20020), (1, 21021), (20, -123)]).mem.wf ∧
    (st 0 9 [(0, 20020), (1, 21021), (20, -123)]).cell 0 = encode (.load 20) ∧
    (st 0 9 [(0, 20020), (1, 21021), (20, -123)]).cell 1 = encode (.store 21) ∧
    (st 248 9 [(248, 20248), (249, 21249)]).cell (248 + 1) = encode (.store 249) ∧
    (st 248 9 [(248, 20248), (249, 21249)]).cell 248 = encode (.load 248) ∧ 248 + 1 < Config.default.bound := by decide

theorem witness_NotTakenBranchRepeatsForever :
    (Fetches (st 4 0 [(4, 41020)]) 41020 ∧ HasFields 41020 41 20 ∧ (0 : Int) ≤ (st 4 0 [(4, 41020)]).acc) ∧
    (Fetches (st 6 3 [(6, 42002)]) 42002 ∧ HasFields 42002 42 2 ∧ (st 6 3 [(6, 42002)]).acc ≠ 0) := by decide

theorem witness_StoredWordIsFetched : (st 0 43000 [(0, 21001)]).mem.wf ∧ Fetches (st 0 43000 [(0, 21001)]) 21001 ∧
    HasFields 21001 21 (0 + 1) ∧ ∃ t, step (st 0 43000 [(0, 21001)]) = .next t :=
  ⟨by decide, by decide, by decide, _, rfl⟩

theorem witness_EncodeThenDecode : (Instr.read 0).WellFormed ∧ (Instr.halt 999).WellFormed := by decide

theorem witness_DecodeThenEncode : decode (-43999) = .instr (.halt 999) ∧ decode 10000 = .instr (.read 0) := by decide

theorem witness_OpcodeMap : HasFields (-43999) 43 999 ∧ HasFields 10000 10 0 ∧ HasFields 999999 999 999 := by decide

/-- The values where the loader statements' clauses meet: zero and non-zero, and the largest two-digit pair. -/
theorem witness_line_forms : (99 : Nat) ≤ 99 ∧ line4 99 99 = ['9', '9', '9', '9'] ∧ line4 0 0 = ['0', '0', '0', '0'] ∧
    line6 10 7 = ['0', '1', '0', '0', '0', '7'] := by decide

/-- RT1 as words. -/
theorem witness_SixDigitLoadReadsBack : (∀ v ∈ ([-10007, 43000, 999999] : List Word), v.natAbs ≤ 999999) ∧
    ([-10007, 43000, 999999] : List Word).length ≤ State.reset.cfg.cap ∧ State.reset.inProgress = false ∧
    unload6 (-10007) = ['-', '0', '1', '0', '0', '0', '7'] := by decide

/-- An accepted load, a rejected one, and one refused with BUSY. -/
theorem witness_LoadIsAllOrNothing :
    (nextOf (step { State.reset with hostq := [.loadProgram [['4', '3', '0', '0']]] })).map State.replies =
      some [.load .ok] ∧
    (nextOf (step { State.reset with hostq := [.loadProgram [['4', '3', '0']]] })).map State.replies =
      some [.load .badLength] ∧
    (nextOf (step { waiting with hostq := [.loadProgram []] })).map State.replies = some [.load .busy] := by decide

/-- Lines at each edge of the three checks: LD13's sign, LD10's empty core, 4, 5 and 6 digits, and two lengths mixed. -/
theorem witness_LoadIsAllOrNothing_checks :
    ¬ LineNumeric ['+', '-', '1', '2', '3', '4'] ∧ (LineNumeric [] ∧ ¬ LineLength []) ∧
    (LineNumeric ['1', '2', '3', '4', '5'] ∧ ¬ LineLength ['1', '2', '3', '4', '5']) ∧
    LineGood [['1', '0', '0', '7'], ['0', '1', '0', '0', '0', '8']] ['1', '0', '0', '7'] ∧
    (LineNumeric ['0', '1', '0', '0', '0', '8'] ∧ LineLength ['0', '1', '0', '0', '0', '8'] ∧
      ¬ LineMatches [['1', '0', '0', '7'], ['0', '1', '0', '0', '0', '8']] ['0', '1', '0', '0', '0', '8']) ∧
    ({ w := 64, cap := 1, bound := 250 } : Config).cap < ([[], []] : List Line).length ∧
    ([['1', '0', '0', '7']] : List Line).length ≤ ({ w := 64, cap := 1, bound := 250 } : Config).cap := by
  simp [LineGood, LineNumeric, LineLength, LineMatches, coreOf, splitSign, isDigit, digitChars]

theorem witness_ParseOfRenderedWord : InRange Config.default (-9223372036854775808) ∧
    ¬ InRange Config.default 9223372036854775808 := by decide

theorem witness_DivisionTruncatesAndOverflowsOnce : Config.default.wf ∧ (-1 : Int) ≠ 0 ∧
    InRange Config.default (wordMin Config.default) ∧ InRange Config.default (-1) ∧
    ¬ InRange Config.default (tdiv (wordMin Config.default) (-1)) ∧
    InRange Config.default (tdiv (wordMax Config.default) (-1)) := by decide

theorem witness_StatusFields : State.reset.Inv ∧ faulted.Inv ∧ faulted.status = 0x44#8 ∧ waiting.status = 0x02#8 ∧
    halted.status = 0x03#8 ∧ State.reset.inProgress = false :=
  ⟨witness_inv_reset, witness_inv_faulted, by decide, by decide, by decide, by decide⟩

/-- A READ about to wait, with a register read queued behind the STEP. -/
theorem witness_StatusFields_read : (st 0 9 [(0, 10249)]).Inv ∧
    Fetches { st 0 9 [(0, 10249)] with hostq := [.step, .readRegs] } 10249 ∧ HasFields 10249 10 249 ∧
    249 < (st 0 9 [(0, 10249)]).cfg.bound ∧ (st 0 9 [(0, 10249)]).inputs = [] :=
  ⟨witness_inv_read, by decide⟩

theorem witness_CanonicalMemoryIsUnique : Memory.wf [(3, 1), (20, -8)] ∧
    (Memory.write [(3, 1), (20, -8)] 3 0).wf ∧ Memory.write [(3, 1), (20, -8)] 3 0 = [(20, -8)] ∧
    ¬ Memory.wf [(3, 0)] ∧ ¬ Memory.wf [(20, 1), (3, 1)] := by decide

end Sys2Proof.Tests
end

section
/-! PROOFS. The opcode map of R80 as equivalences on a word given by its fields. -/

namespace Sys2Proof.Proofs.OpcodeMap

open Sys2Proof Sys2Proof.Machine

section Rows

variable {w : Word} {o a : Nat}

/-- R80: a word decodes to an instruction that carries its operand exactly when its opcode is the instruction's. -/
theorem decode_eq_instr_iff (hw : HasFields w o a) {i : Instr} (hi : i.operand = a) :
    decode w = .instr i ↔ o = i.opcode := by
  rw [decode_fields hw]
  constructor
  · exact fun h => (decodeFields_instr h).1.symm
  · rintro rfl
    rw [← hi]
    exact decodeFields_opcode i

/-- R81: a word is rejected, by its opcode, exactly when the map has no row for the opcode. -/
theorem decode_eq_undefinedOpcode_iff (hw : HasFields w o a) :
    decode w = .undefinedOpcode o ↔ o ∉ [10, 11, 20, 21, 30, 31, 32, 33, 40, 41, 42, 43] := by
  rw [decode_fields hw]
  exact ⟨fun h => (decodeFields_undefined h).2, decodeFields_of_not_mem⟩

end Rows

/-- Settles O46: each row is `decode_eq_instr_iff` at that row's instruction, whose opcode and operand compute. -/
theorem opcodeMap : Obligations.OpcodeMap := by
  intro w o a hw
  have row (i : Instr) (hi : i.operand = a) : decode w = .instr i ↔ o = i.opcode := decode_eq_instr_iff hw hi
  exact ⟨row (.read a) rfl, row (.write a) rfl, row (.load a) rfl, row (.store a) rfl,
    row (.add a) rfl, row (.subtract a) rfl, row (.divide a) rfl, row (.multiply a) rfl,
    row (.branch a) rfl, row (.branchneg a) rfl, row (.branchzero a) rfl, row (.halt a) rfl,
    decode_eq_undefinedOpcode_iff hw⟩

end Sys2Proof.Proofs.OpcodeMap
end

section
/-! PROOFS. The step cycle from the fetched word to its dispatch: R103 to R107 once the address check has passed. -/

namespace Sys2Proof.Proofs.StepCycle

open Sys2Proof Sys2Proof.Machine

section Fetched

variable {s : State} {w : Word}

/-- R106: past the address check, a word that decodes to `i` runs `i`. -/
theorem runFetched_of_instr {i : Instr} (ha : operandOf s.ir < s.cfg.bound) (hd : decode s.ir = .instr i) :
    runFetched s = exec i s := by
  rw [runFetched, if_neg (Nat.not_le.2 ha), hd]

/-- R107: past the address check, a word with an opcode outside the map raises INVALID_INSTRUCTION. -/
theorem runFetched_of_undefinedOpcode {n : Nat} (ha : operandOf s.ir < s.cfg.bound)
    (hd : decode s.ir = .undefinedOpcode n) : runFetched s = raise .invalidInstruction s := by
  rw [runFetched, if_neg (Nat.not_le.2 ha), hd]

/-- R193: a fault raised in the state a fetch leaves gives the faulted state of the obligations. -/
theorem raise_fetched (s : State) (w : Word) (c : Cause) : raise c (s.fetched w) = .next (s.faultedAs w c) := rfl

/-- R103, R106: a step that fetches the word of `i`, its operand below BOUND, is `exec i` on the fetched state. -/
theorem step_of_fetches_instr {i : Instr} (hf : Fetches s w) (ha : operandOf w < s.cfg.bound)
    (hd : decode w = .instr i) : step s = exec i (s.fetched w) :=
  (step_of_fetches hf).trans (runFetched_of_instr (s := s.fetched w) ha hd)

/-- R107: a step that fetches a word with an undefined opcode, its operand below BOUND, faults. -/
theorem step_of_fetches_undefinedOpcode {n : Nat} (hf : Fetches s w) (ha : operandOf w < s.cfg.bound)
    (hd : decode w = .undefinedOpcode n) : step s = .next (s.faultedAs w .invalidInstruction) :=
  calc step s = runFetched (s.fetched w) := step_of_fetches hf
    _ = raise .invalidInstruction (s.fetched w) := runFetched_of_undefinedOpcode (s := s.fetched w) ha hd
    _ = .next (s.faultedAs w .invalidInstruction) := raise_fetched s w _

end Fetched

/-- Settles O4: the opcode map rejects every opcode outside the twelve, and the operand field is what the address check
reads. -/
theorem undefinedOpcodeFaults : Obligations.UndefinedOpcodeFaults := by
  intro s w o a hf hw ha ho
  have hd : decode w = .undefinedOpcode o := (OpcodeMap.decode_eq_undefinedOpcode_iff hw).2 ho
  have ha' : operandOf w < s.cfg.bound := (operandOf_fields hw).symm ▸ ha
  exact step_of_fetches_undefinedOpcode hf ha' hd

/-- Settles O1: a decoded instruction carries the operand of its word, so it is well formed and its operand is what the
address check reads. -/
theorem stepRunsDecodedInstruction : Obligations.StepRunsDecodedInstruction := by
  intro s w i hf hd ha
  obtain ⟨-, hop, hwf⟩ := decode_instr hd
  exact ⟨hwf, step_of_fetches_instr hf (hop ▸ ha) hd⟩

end Sys2Proof.Proofs.StepCycle
end

section
/-! PROOFS. The address check of R105 from the fetched word, and the step of a word given by its fields. -/

namespace Sys2Proof.Proofs.StepCycle

open Sys2Proof Sys2Proof.Machine

variable {s : State} {w : Word}

/-- R105: an operand at or past BOUND raises INVALID_ADDRESS before any decode. -/
theorem runFetched_of_bound_le (ha : s.cfg.bound ≤ operandOf s.ir) : runFetched s = raise .invalidAddress s := by
  rw [runFetched, if_pos ha]

/-- R105: a step that fetches a word with an operand at or past BOUND faults, whatever the opcode. -/
theorem step_of_fetches_bound_le {o a : Nat} (hf : Fetches s w) (hw : HasFields w o a) (ha : s.cfg.bound ≤ a) :
    step s = .next (s.faultedAs w .invalidAddress) := by
  have ha' : s.cfg.bound ≤ operandOf w := (operandOf_fields hw).symm ▸ ha
  calc step s = runFetched (s.fetched w) := step_of_fetches hf
    _ = raise .invalidAddress (s.fetched w) := runFetched_of_bound_le (s := s.fetched w) ha'
    _ = .next (s.faultedAs w .invalidAddress) := raise_fetched s w _

/-- R75, R80: a word with the fields of the instruction `i` decodes to `i`. -/
theorem decode_of_instr_fields {i : Instr} (hw : HasFields w i.opcode i.operand) : decode w = .instr i :=
  (decode_fields hw).trans (decodeFields_opcode i)

/-- R103, R106: a step that fetches a word with the fields of `i`, its operand below BOUND, is `exec i` on the fetched
state. -/
theorem step_of_fetches_fields {i : Instr} (hf : Fetches s w) (hw : HasFields w i.opcode i.operand)
    (ha : i.operand < s.cfg.bound) : step s = exec i (s.fetched w) :=
  step_of_fetches_instr hf ((operandOf_fields hw).symm ▸ ha) (decode_of_instr_fields hw)

end Sys2Proof.Proofs.StepCycle
end

section
/-! PROOFS. READ and WRITE from the fetched word, and the input handshake (R120 to R125). -/

namespace Sys2Proof.Proofs.Io

open Sys2Proof Sys2Proof.Machine

section Operations

variable {s : State} {a : Nat} {line : Line} {rest : List Line} {v : Word}

/-- R121: a parsed line for a cell that does not exist. -/
theorem finishRead_of_cap_le (hp : parseInt s.cfg line = some v) (ha : s.cfg.cap ≤ a) :
    finishRead a line s = raise .memoryRange s :=
  (finishRead_of_parsed hp).trans (checkedWriteCommit_of_le v ha)

/-- R120: a parsed line for a cell that exists. -/
theorem finishRead_of_lt_cap (hp : parseInt s.cfg line = some v) (ha : a < s.cfg.cap) :
    finishRead a line s = .next (s.setCell a v).commitSeq :=
  (finishRead_of_parsed hp).trans (checkedWriteCommit_of_lt v ha)

/-- R125: with no line ready READ makes its request. -/
theorem exec_read_of_no_line (hi : s.inputs = []) : exec (.read a) s = .next s.requestInput := by
  rw [exec, execRead, hi]

/-- R120, R125: with a line ready the same step goes on with it (log entry 6). -/
theorem exec_read_of_line (hi : s.inputs = line :: rest) :
    exec (.read a) s = finishRead a line (s.setInputs rest).requestInput.acceptInput := by
  rw [exec, execRead, hi]

/-- R122: WRITE of a cell that does not exist. -/
theorem exec_write_of_cap_le (ha : s.cfg.cap ≤ a) : exec (.write a) s = raise .memoryRange s := by
  rw [exec, execWrite, checkedRead_of_le _ ha]

/-- R122: WRITE of a cell that exists. -/
theorem exec_write_of_lt_cap (ha : a < s.cfg.cap) :
    exec (.write a) s = .next (s.emit (outputLine (s.cell a))).commitSeq := by
  rw [exec, execWrite, checkedRead_of_lt _ ha]

/-- R122: the text of WRITE's line. -/
theorem outputLine_eq (v : Int) : outputLine v = "Output: ".toList ++ dec v := rfl

end Operations

section Waiting

variable {s : State}

/-- R113: a waiting READ with no line ready is held, whatever STEPs are queued. -/
theorem step_of_waiting_no_line (hr : s.runState = .waitInput) (hi : s.inputs = [])
    (hq : ∀ e ∈ s.hostq, e = .step) : step s = .next s := by
  have hp : s.inProgress = true := inProgress_iff.2 (.inr hr)
  have ht : takeEvent s.inProgress s.hostq = none := takeEvent_none.2 (.inr ⟨hp, hq⟩)
  rw [step, transition, ht]
  simp only [stepRequest, hr, hi]

/-- R125: the line delivered first in the queue is the one the outstanding request takes. -/
theorem step_of_delivered {line : Line} {q : List HostEvent} (hi : s.inpend = true)
    (hq : s.hostq = .inResp line :: q) :
    step s = finishRead (operandOf s.ir) line (s.setHostq q).acceptInput := by
  have hi' : (s.setHostq q).inpend = true := hi
  rw [step_of_first hq (.inl nofun), hostTransaction, if_pos hi', resumeRead, State.setHostq_ir]

end Waiting

/-- Settles O6: past the address check the step is WRITE itself, and its checked read has two ends. -/
theorem writeRule : Obligations.WriteRule := by
  intro s w a hf hw
  have run (ha : a < s.cfg.bound) : step s = exec (.write a) (s.fetched w) :=
    StepCycle.step_of_fetches_fields (i := .write a) hf hw ha
  refine ⟨StepCycle.step_of_fetches_bound_le hf hw, fun ha hc => ?_, fun ha hc => ?_⟩
  · rw [run ha]
    exact exec_write_of_cap_le hc
  · rw [run ha, ← outputLine_eq]
    exact exec_write_of_lt_cap hc

/-- Settles O5: past the address check the step is READ itself, which waits without a line and with one has the three
ends of `finishRead`. -/
theorem readRule : Obligations.ReadRule := by
  intro s w a hf hw
  have run (ha : a < s.cfg.bound) : step s = exec (.read a) (s.fetched w) :=
    StepCycle.step_of_fetches_fields (i := .read a) hf hw ha
  have runLine {line rest} (ha : a < s.cfg.bound) (hi : s.inputs = line :: rest) :
      step s = finishRead a line ((s.fetched w).setInputs rest).requestInput.acceptInput :=
    (run ha).trans (exec_read_of_line hi)
  refine ⟨StepCycle.step_of_fetches_bound_le hf hw, fun ha hi => ?_, fun line rest ha hi hp => ?_,
    fun line rest v ha hi hp hc => ?_, fun line rest v ha hi hp hc => ?_⟩
  · exact (run ha).trans (exec_read_of_no_line hi)
  · exact (runLine ha hi).trans (finishRead_of_invalid hp)
  · exact (runLine ha hi).trans (finishRead_of_cap_le hp hc)
  · exact (runLine ha hi).trans (finishRead_of_lt_cap hp hc)

/-- Settles O25: the request, the hold, and the three ends of `finishRead` on the delivered line. -/
theorem inputHandshake : Obligations.InputHandshake := by
  refine ⟨fun a s hi => exec_read_of_no_line hi, fun s => step_of_waiting_no_line,
    fun s line q _ hi hq => ⟨fun hp => ?_, fun v hp hc => ?_, fun v hp hc => ?_⟩⟩
  · exact (step_of_delivered hi hq).trans (finishRead_of_invalid hp)
  · exact (step_of_delivered hi hq).trans (finishRead_of_cap_le hp hc)
  · exact (step_of_delivered hi hq).trans (finishRead_of_lt_cap hp hc)

end Sys2Proof.Proofs.Io
end

section
/-! PROOFS. LOAD and STORE from the fetched word (R140, R142). -/

namespace Sys2Proof.Proofs.LoadStore

open Sys2Proof Sys2Proof.Machine

section Operations

variable {s : State} {a : Nat}

/-- R140: LOAD of a cell that does not exist. -/
theorem exec_load_of_cap_le (ha : s.cfg.cap ≤ a) : exec (.load a) s = raise .memoryRange s := by
  rw [exec, execLoad, checkedRead_of_le _ ha]

/-- R140: LOAD of a cell that exists. -/
theorem exec_load_of_lt_cap (ha : a < s.cfg.cap) : exec (.load a) s = .next (s.setAcc (s.cell a)).commitSeq := by
  rw [exec, execLoad, checkedRead_of_lt _ ha]

/-- R142: STORE to a cell that does not exist. -/
theorem exec_store_of_cap_le (ha : s.cfg.cap ≤ a) : exec (.store a) s = raise .memoryRange s := by
  rw [exec, execStore, checkedWriteCommit_of_le _ ha]

/-- R142: STORE to a cell that exists. -/
theorem exec_store_of_lt_cap (ha : a < s.cfg.cap) : exec (.store a) s = .next (s.setCell a s.acc).commitSeq := by
  rw [exec, execStore, checkedWriteCommit_of_lt _ ha]

end Operations

/-- R53, R105: an instruction that raises MEMORY_RANGE past CAP and below CAP leaves `t` has three ends from its fetched
word, by its operand alone: the address check's fault, the range check's fault, and `t`. -/
theorem step_of_checked_operand {s t : State} {w : Word} {i : Instr} (hf : Fetches s w)
    (hw : HasFields w i.opcode i.operand)
    (hfault : (s.fetched w).cfg.cap ≤ i.operand → exec i (s.fetched w) = raise .memoryRange (s.fetched w))
    (hcommit : i.operand < (s.fetched w).cfg.cap → exec i (s.fetched w) = .next t) :
    (s.cfg.bound ≤ i.operand → step s = .next (s.faultedAs w .invalidAddress)) ∧
    (i.operand < s.cfg.bound → s.cfg.cap ≤ i.operand → step s = .next (s.faultedAs w .memoryRange)) ∧
    (i.operand < s.cfg.bound → i.operand < s.cfg.cap → step s = .next t) := by
  have run (ha : i.operand < s.cfg.bound) : step s = exec i (s.fetched w) :=
    StepCycle.step_of_fetches_fields hf hw ha
  refine ⟨StepCycle.step_of_fetches_bound_le hf hw, fun ha hc => ?_, fun ha hc => ?_⟩
  · calc step s = exec i (s.fetched w) := run ha
      _ = raise .memoryRange (s.fetched w) := hfault hc
      _ = .next (s.faultedAs w .memoryRange) := StepCycle.raise_fetched s w _
  · exact (run ha).trans (hcommit hc)

/-- Settles O7: LOAD's checked read has the two ends past the address check. -/
theorem loadRule : Obligations.LoadRule := by
  intro s w a hf hw
  exact step_of_checked_operand (i := .load a) hf hw exec_load_of_cap_le exec_load_of_lt_cap

/-- Settles O8: STORE's checked write has the two ends past the address check. -/
theorem storeRule : Obligations.StoreRule := by
  intro s w a hf hw
  exact step_of_checked_operand (i := .store a) hf hw exec_store_of_cap_le exec_store_of_lt_cap

end Sys2Proof.Proofs.LoadStore
end

section
/-! PROOFS. ADD, SUBTRACT, DIVIDE and MULTIPLY from the fetched word (R150 to R160). -/

namespace Sys2Proof.Proofs.Arithmetic

open Sys2Proof Sys2Proof.Machine

section Operations

variable (a : Nat) (s : State)

/-- R152. -/
theorem exec_add : exec (.add a) s = checkedRead a s fun m => writeAccChecked (s.acc + m) s := rfl

/-- R154. -/
theorem exec_subtract : exec (.subtract a) s = checkedRead a s fun m => writeAccChecked (s.acc - m) s := rfl

/-- R160. -/
theorem exec_multiply : exec (.multiply a) s = checkedRead a s fun m => writeAccChecked (s.acc * m) s := rfl

/-- R151 (decision D3): the model's division on magnitudes is the library's division truncated toward zero.  A zero
divisor needs no exception, since both quotients are then 0. -/
theorem tdiv_eq_int_tdiv (x y : Int) : tdiv x y = x.tdiv y := by
  cases x with
  | ofNat m =>
    cases y with
    | ofNat n => exact if_pos (iff_of_false (Int.natCast_nonneg m).not_gt (Int.natCast_nonneg n).not_gt)
    | negSucc n => exact if_neg (by simp)
  | negSucc m =>
    cases y with
    | ofNat n => exact if_neg (by simp)
    | negSucc n => exact if_pos (by simp)

/-- R156, R158: the zero divisor is checked before the division. -/
theorem exec_divide : exec (.divide a) s = checkedRead a s fun d =>
    if d = 0 then raise .divideByZero s else writeAccChecked (s.acc.tdiv d) s := by
  simp only [exec, execDivide, tdiv_eq_int_tdiv]

end Operations

section Steps

variable {s : State} {w : Word} {i : Instr}

/-- R53, R105: an instruction that reads its operand and goes on with `k` has three ends from its fetched word: the
address check's fault, the range check's fault, and `k` on the cell. -/
theorem step_of_checkedRead {k : Word → Result} (hf : Fetches s w) (hw : HasFields w i.opcode i.operand)
    (hi : exec i (s.fetched w) = checkedRead i.operand (s.fetched w) k) :
    (s.cfg.bound ≤ i.operand → step s = .next (s.faultedAs w .invalidAddress)) ∧
    (i.operand < s.cfg.bound → s.cfg.cap ≤ i.operand → step s = .next (s.faultedAs w .memoryRange)) ∧
    (i.operand < s.cfg.bound → i.operand < s.cfg.cap → step s = k (s.cell i.operand)) := by
  have run (ha : i.operand < s.cfg.bound) : step s = checkedRead i.operand (s.fetched w) k :=
    (StepCycle.step_of_fetches_fields hf hw ha).trans hi
  refine ⟨StepCycle.step_of_fetches_bound_le hf hw, fun ha hc => ?_, fun ha hc => ?_⟩
  · calc step s = checkedRead i.operand (s.fetched w) k := run ha
      _ = raise .memoryRange (s.fetched w) := checkedRead_of_le k hc
      _ = .next (s.faultedAs w .memoryRange) := StepCycle.raise_fetched s w _
  · exact (run ha).trans (checkedRead_of_lt k hc)

/-- R150 (decision D2), R193: an exact result out of range, computed in the state a fetch leaves. -/
theorem writeAccChecked_fetched_of_not {r : Int} (hr : ¬ InRange s.cfg r) :
    writeAccChecked r (s.fetched w) = .next (s.faultedAs w .overflow) :=
  (writeAccChecked_of_not (s := s.fetched w) hr).trans (StepCycle.raise_fetched s w _)

/-- R150: an exact result in range, computed in the state a fetch leaves, is what the step commits to `ACC`. -/
theorem writeAccChecked_fetched_of_inRange {r : Int} (hr : InRange s.cfg r) :
    writeAccChecked r (s.fetched w) = .next { s with
      hostq := s.hostq.tail, ir := w, acc := r,
      pc := s.pc + 1, irAtStart := none, runState := stateAt s.cfg (s.pc + 1) } :=
  writeAccChecked_of_inRange (s := s.fetched w) hr

/-- R150: an instruction that reads its operand and puts the exact result of `op` on `ACC` and that word in `ACC` has
four ends from its fetched word. -/
theorem step_of_exact_result (op : Word → Word → Word) (hf : Fetches s w) (hw : HasFields w i.opcode i.operand)
    (hi : exec i (s.fetched w) =
      checkedRead i.operand (s.fetched w) fun m => writeAccChecked (op s.acc m) (s.fetched w)) :
    (s.cfg.bound ≤ i.operand → step s = .next (s.faultedAs w .invalidAddress)) ∧
    (i.operand < s.cfg.bound → s.cfg.cap ≤ i.operand → step s = .next (s.faultedAs w .memoryRange)) ∧
    (i.operand < s.cfg.bound → i.operand < s.cfg.cap → ¬ InRange s.cfg (op s.acc (s.cell i.operand)) →
      step s = .next (s.faultedAs w .overflow)) ∧
    (i.operand < s.cfg.bound → i.operand < s.cfg.cap → InRange s.cfg (op s.acc (s.cell i.operand)) →
      step s = .next { s with
        hostq := s.hostq.tail, ir := w, acc := op s.acc (s.cell i.operand),
        pc := s.pc + 1, irAtStart := none, runState := stateAt s.cfg (s.pc + 1) }) := by
  obtain ⟨haddress, hrange, hresult⟩ := step_of_checkedRead hf hw hi
  exact ⟨haddress, hrange,
    fun ha hc hr => (hresult ha hc).trans (writeAccChecked_fetched_of_not hr),
    fun ha hc hr => (hresult ha hc).trans (writeAccChecked_fetched_of_inRange hr)⟩

end Steps

/-- Settles O9: ADD puts an exact result in `ACC`, the sum. -/
theorem addRule : Obligations.AddRule := by
  intro s w a hf hw
  exact step_of_exact_result (i := .add a) (· + ·) hf hw (exec_add a (s.fetched w))

/-- Settles O10: SUBTRACT puts an exact result in `ACC`, the difference `ACC - M[a]`. -/
theorem subtractRule : Obligations.SubtractRule := by
  intro s w a hf hw
  exact step_of_exact_result (i := .subtract a) (· - ·) hf hw (exec_subtract a (s.fetched w))

/-- Settles O11: past the two checks of the operand the step is the zero check, and past that the exact quotient. -/
theorem divideRule : Obligations.DivideRule := by
  intro s w a hf hw
  obtain ⟨haddress, hrange, hdivisor⟩ :=
    step_of_checkedRead (i := .divide a) hf hw (exec_divide a (s.fetched w))
  have hquotient (ha : a < s.cfg.bound) (hc : a < s.cfg.cap) (hd : s.cell a ≠ 0) :
      step s = writeAccChecked (s.acc.tdiv (s.cell a)) (s.fetched w) :=
    (hdivisor ha hc).trans (if_neg hd)
  refine ⟨haddress, hrange, fun ha hc hd => ?_, fun ha hc hd hr => ?_, fun ha hc hd hr => ?_⟩
  · calc step s = raise .divideByZero (s.fetched w) := (hdivisor ha hc).trans (if_pos hd)
      _ = .next (s.faultedAs w .divideByZero) := StepCycle.raise_fetched s w _
  · exact (hquotient ha hc hd).trans (writeAccChecked_fetched_of_not hr)
  · exact (hquotient ha hc hd).trans (writeAccChecked_fetched_of_inRange hr)

/-- Settles O12: MULTIPLY puts an exact result in `ACC`, the product. -/
theorem multiplyRule : Obligations.MultiplyRule := by
  intro s w a hf hw
  exact step_of_exact_result (i := .multiply a) (· * ·) hf hw (exec_multiply a (s.fetched w))

end Sys2Proof.Proofs.Arithmetic
end

section
/-! PROOFS. BRANCH, BRANCHNEG, BRANCHZERO and HALT from the fetched word (R170 to R178). -/

namespace Sys2Proof.Proofs.Control

open Sys2Proof Sys2Proof.Machine

section Operations

variable (a : Nat) (s : State)

/-- R170. -/
theorem exec_branch : exec (.branch a) s = .next (s.commit a) := rfl

/-- R172, R173, R177: the next PC is chosen by the sign of `ACC`. -/
theorem exec_branchneg : exec (.branchneg a) s = .next (s.commit (if s.acc < 0 then a else s.pc)) := by
  simp only [exec, execBranchneg, accNegative, decide_eq_true_eq]

/-- R175, R176, R177: the next PC is chosen by whether `ACC` is 0. -/
theorem exec_branchzero : exec (.branchzero a) s = .next (s.commit (if s.acc = 0 then a else s.pc)) := by
  simp only [exec, execBranchzero, accZero, decide_eq_true_eq]

/-- R178. -/
theorem exec_halt : exec (.halt a) s = .next ((s.emit finishedLine).commit s.cfg.bound) := rfl

/-- R178: the text of HALT's line. -/
theorem finishedLine_eq : finishedLine = "Program finished".toList := rfl

/-- R109: a commit of BOUND as the next PC halts. -/
theorem commit_bound : s.commit s.cfg.bound =
    { s with pc := s.cfg.bound, irAtStart := none, runState := .halted } := by
  rw [State.commit, if_pos rfl]

/-- R109: a commit of a next PC below BOUND leaves STATE READY. -/
theorem commit_of_lt_bound {p : Nat} (hp : p < s.cfg.bound) : s.commit p =
    { s with pc := p, irAtStart := none, runState := .ready } := by
  rw [State.commit, if_neg hp.ne]

end Operations

section Steps

variable {s : State} {w : Word} {i : Instr}

/-- R108, R109: an instruction that commits `p` as the next PC, its operand and `p` below BOUND, leaves `pc` at `p` and
STATE READY. -/
theorem step_of_commit {p : Nat} (hf : Fetches s w) (hw : HasFields w i.opcode i.operand)
    (hi : exec i (s.fetched w) = .next ((s.fetched w).commit p)) (ha : i.operand < s.cfg.bound)
    (hp : p < s.cfg.bound) :
    step s = .next { s with hostq := s.hostq.tail, ir := w, irAtStart := none, pc := p, runState := .ready } :=
  calc step s = exec i (s.fetched w) := StepCycle.step_of_fetches_fields hf hw ha
    _ = .next ((s.fetched w).commit p) := hi
    _ = _ := congrArg _ (commit_of_lt_bound (s.fetched w) hp)

/-- R105, R177: an instruction that branches to its operand exactly when `c` holds has three ends from its fetched word:
the address check's fault whether `c` holds or not, the branch taken, and the PC left where it was. -/
theorem step_of_conditional_branch (c : Prop) [Decidable c] (hf : Fetches s w)
    (hw : HasFields w i.opcode i.operand) (hpc : s.pc < s.cfg.bound)
    (hi : exec i (s.fetched w) = .next ((s.fetched w).commit (if c then i.operand else s.pc))) :
    (s.cfg.bound ≤ i.operand → step s = .next (s.faultedAs w .invalidAddress)) ∧
    (i.operand < s.cfg.bound → c →
      step s = .next { s with
        hostq := s.hostq.tail, ir := w, irAtStart := none, pc := i.operand, runState := .ready }) ∧
    (i.operand < s.cfg.bound → ¬ c →
      step s = .next { s with hostq := s.hostq.tail, ir := w, irAtStart := none, runState := .ready }) := by
  refine ⟨StepCycle.step_of_fetches_bound_le hf hw, fun ha hc => ?_, fun ha hc => ?_⟩
  · rw [if_pos hc] at hi
    exact step_of_commit hf hw hi ha ha
  · rw [if_neg hc] at hi
    exact step_of_commit hf hw hi ha hpc

end Steps

/-- Settles O13: BRANCH commits its operand, which the address check has put below BOUND. -/
theorem branchRule : Obligations.BranchRule := by
  intro s w a hf hw
  exact ⟨StepCycle.step_of_fetches_bound_le hf hw,
    fun ha => step_of_commit (i := .branch a) hf hw (exec_branch a (s.fetched w)) ha ha⟩

/-- Settles O14: BRANCHNEG is the conditional branch on `ACC < 0`. -/
theorem branchnegRule : Obligations.BranchnegRule := by
  intro s w a hf hw hpc
  obtain ⟨haddress, htaken, hnot⟩ :=
    step_of_conditional_branch (i := .branchneg a) (s.acc < 0) hf hw hpc (exec_branchneg a (s.fetched w))
  exact ⟨haddress, htaken, fun ha hacc => hnot ha (not_lt.2 hacc)⟩

/-- Settles O15: BRANCHZERO is the conditional branch on `ACC = 0`. -/
theorem branchzeroRule : Obligations.BranchzeroRule := by
  intro s w a hf hw hpc
  exact step_of_conditional_branch (i := .branchzero a) (s.acc = 0) hf hw hpc (exec_branchzero a (s.fetched w))

/-- Settles O16: past the address check HALT emits its line and commits BOUND. -/
theorem haltRule : Obligations.HaltRule := by
  intro s w a hf hw
  refine ⟨StepCycle.step_of_fetches_bound_le hf hw, fun ha => ?_⟩
  calc step s = exec (.halt a) (s.fetched w) := StepCycle.step_of_fetches_fields (i := .halt a) hf hw ha
    _ = .next (((s.fetched w).emit finishedLine).commit s.cfg.bound) := exec_halt a (s.fetched w)
    _ = _ := by
      rw [finishedLine_eq]
      exact congrArg _ (commit_bound ((s.fetched w).emit _))

end Sys2Proof.Proofs.Control
end

section
/-! PROOFS. The canonical word and the decoder are inverse up to the sign (R74, R75, R93). -/

namespace Sys2Proof.Proofs.Encoding

open Sys2Proof Sys2Proof.Machine

/-- R74: a word and its negative have the same fields. -/
theorem hasFields_neg {w : Word} {o a : Nat} (h : HasFields w o a) : HasFields (-w) o a :=
  ⟨(Int.natAbs_neg w).trans h.1, h.2⟩

/-- R75: the two fields of a word make up its magnitude. -/
theorem natAbs_eq_fields (w : Word) : w.natAbs = 1000 * opcodeOf w + operandOf w :=
  (Nat.div_add_mod w.natAbs 1000).symm

/-- R93: the magnitude of the canonical word. -/
theorem natAbs_encode (i : Instr) : (encode i).natAbs = 1000 * i.opcode + i.operand := by
  rw [encode, enc, Int.natAbs_natCast, Nat.mul_comm]

/-- Settles O44: the canonical word and its negative have the instruction's fields. -/
theorem encodeThenDecode : Obligations.EncodeThenDecode := by
  intro i hwf
  have hw : HasFields (encode i) i.opcode i.operand := hasFields_enc hwf
  exact ⟨StepCycle.decode_of_instr_fields hw, StepCycle.decode_of_instr_fields (hasFields_neg hw)⟩

/-- Settles O45: the word has the magnitude of the canonical word of what it decodes to. -/
theorem decodeThenEncode : Obligations.DecodeThenEncode := by
  intro w i hd
  obtain ⟨hop, hoperand, hwf⟩ := decode_instr hd
  have hmag : w.natAbs = (encode i).natAbs := by
    rw [natAbs_eq_fields, natAbs_encode, hop, hoperand]
  exact ⟨hwf, Int.natAbs_eq_natAbs_iff.1 hmag⟩

/-- Settles O47: each word has the fields the spec's column writes. -/
theorem specWordsDecode : Obligations.SpecWordsDecode := by
  have row (w : Word) (i : Instr) (hw : HasFields w i.opcode i.operand) : decode w = .instr i :=
    StepCycle.decode_of_instr_fields hw
  exact ⟨row 10007 (.read 7) (by decide), row (-10007) (.read 7) (by decide), row 20249 (.load 249) (by decide),
    row 33034 (.multiply 34) (by decide), row 41020 (.branchneg 20) (by decide), row 43000 (.halt 0) (by decide),
    (OpcodeMap.decode_eq_undefinedOpcode_iff (o := 1234) (a := 567) (by decide)).2 (by decide)⟩

end Sys2Proof.Proofs.Encoding
end

section
/-! PROOFS. The texts of numbers: digit strings of fixed width (R91, R93), `dec` (R131) and ParseInt (R127). -/

namespace Sys2Proof.Proofs.Text

open Sys2Proof Sys2Proof.Machine

/-! ### Digits of fixed width -/

theorem digitsValueFrom_snoc (n : Nat) (ds : Line) (c : Char) :
    digitsValueFrom n (ds ++ [c]) = 10 * digitsValueFrom n ds + digitVal c :=
  digitsValueFrom_append n ds [c]

theorem isDigit_of_mem_decPadded {k n : Nat} {c : Char} (h : c ∈ decPadded k n) : isDigit c = true := by
  induction k generalizing n with
  | zero => simp [decPadded] at h
  | succ k ih =>
    rcases List.mem_append.1 h with h | h
    · exact ih h
    · rw [List.mem_singleton.1 h]
      exact isDigit_digitChar (Nat.mod_lt n (by decide))

@[simp] theorem length_decPadded (k n : Nat) : (decPadded k n).length = k := by
  induction k generalizing n with
  | zero => rfl
  | succ k ih => simp [decPadded, ih]

/-- The `k` digits read back as `n` below `10^k`, after the digits of `m`. -/
theorem digitsValueFrom_decPadded {k n : Nat} (m : Nat) (h : n < 10 ^ k) :
    digitsValueFrom m (decPadded k n) = m * 10 ^ k + n := by
  induction k generalizing n with
  | zero => simp [decPadded, digitsValueFrom, Nat.lt_one_iff.1 h]
  | succ k ih =>
    have hlow : n % 10 < 10 := Nat.mod_lt n (by decide)
    have hhigh : n / 10 < 10 ^ k := by rw [pow_succ] at h; omega
    rw [decPadded, digitsValueFrom_snoc, ih hhigh, digitVal_digitChar hlow, pow_succ, ← Nat.mul_assoc]
    omega

/-- Only the last two decimal digits show in two places. -/
theorem decPadded_two_mod (n : Nat) : decPadded 2 (n % 100) = decPadded 2 n := by
  have htens : n % 100 / 10 % 10 = n / 10 % 10 := by omega
  have hunits : n % 100 % 10 = n % 10 := by omega
  simp only [decPadded, htens, hunits]

/-- Six digits are the first digit of each half and two digits after it. -/
theorem decPadded_six (n : Nat) :
    decPadded 6 n = [digitChar (n / 100000 % 10)] ++ decPadded 2 (n / 1000) ++ [digitChar (n / 100 % 10)] ++
      decPadded 2 n := by
  simp [decPadded, Nat.div_div_eq_div_mul]

/-! ### `dec` -/

/-- R131: `ds` is the decimal text of `n`, without leading zeros. -/
structure IsDecimal (n : Nat) (ds : Line) : Prop where
  ne_nil : ds ≠ []
  digits : ∀ c ∈ ds, isDigit c = true
  value : digitsValue ds = n
  no_leading_zero : ds.head? = some '0' → ds = ['0'] ∧ n = 0

/-- A number below ten is its one digit. -/
theorem isDecimal_digit {d : Nat} (h : d < 10) : IsDecimal d [digitChar d] where
  ne_nil := by simp
  digits := by simpa using isDigit_digitChar h
  value := by simp [digitsValue, digitsValueFrom, digitVal_digitChar h]
  no_leading_zero := by
    revert d
    decide

/-- A number from ten on is the text of its tenth and its last digit. -/
theorem IsDecimal.snoc {n : Nat} {ds : Line} (h : IsDecimal (n / 10) ds) (hn : 10 ≤ n) :
    IsDecimal n (ds ++ [digitChar (n % 10)]) where
  ne_nil := by simp
  digits := by
    intro c hc
    rcases List.mem_append.1 hc with hc | hc
    · exact h.digits c hc
    · rw [List.mem_singleton.1 hc]
      exact isDigit_digitChar (Nat.mod_lt n (by decide))
  value := by
    have hval : digitsValueFrom 0 ds = n / 10 := h.value
    rw [digitsValue, digitsValueFrom_snoc, hval, digitVal_digitChar (Nat.mod_lt n (by decide))]
    omega
  no_leading_zero := by
    intro h0
    rw [List.head?_append_of_ne_nil ds h.ne_nil] at h0
    have hzero : n / 10 = 0 := (h.no_leading_zero h0).2
    omega

/-- The digits are put before the tail, and `2^fuel` bounds the numbers that `fuel` digits suffice for. -/
theorem decNatOnto_isDecimal (fuel : Nat) {n : Nat} (h : n < 2 ^ (fuel + 1)) (tail : Line) :
    ∃ ds, decNatOnto (fuel + 1) n tail = ds ++ tail ∧ IsDecimal n ds := by
  induction fuel generalizing n tail with
  | zero =>
    have hn : n < 10 := by omega
    exact ⟨[digitChar n], by simp [decNatOnto, hn], isDecimal_digit hn⟩
  | succ fuel ih =>
    rw [decNatOnto]
    by_cases hn : n < 10
    · exact ⟨[digitChar n], by simp [hn], isDecimal_digit hn⟩
    · have hlt : n / 10 < 2 ^ (fuel + 1) := by rw [pow_succ] at h; omega
      obtain ⟨ds, heq, hds⟩ := ih hlt (digitChar (n % 10) :: tail)
      exact ⟨ds ++ [digitChar (n % 10)], by simp [hn, heq], hds.snoc (by omega)⟩

theorem decNat_isDecimal (n : Nat) : IsDecimal n (decNat n) := by
  obtain ⟨ds, heq, hds⟩ := decNatOnto_isDecimal n.log2 Nat.lt_log2_self []
  rw [List.append_nil] at heq
  rwa [decNat, heq]

/-- Settles O55: the digits are those of `decNat` on the magnitude. -/
theorem renderingIsCanonical : Obligations.RenderingIsCanonical := by
  intro v
  obtain ⟨hne, hdigits, hvalue, hzero⟩ := decNat_isDecimal v.natAbs
  refine ⟨decNat v.natAbs, rfl, hne, hdigits, hvalue, fun h0 => ?_⟩
  exact ⟨(hzero h0).1, Int.natAbs_eq_zero.1 (hzero h0).2⟩

/-! ### ParseInt -/

/-- R127: the three signs of the grammar. -/
abbrev IsSign (sign : Line) : Prop := sign ∈ [[], ['+'], ['-']]

/-- A text that starts with a digit has no sign. -/
theorem splitSign_of_digit {c : Char} (h : isDigit c = true) (l : Line) : splitSign (c :: l) = (false, c :: l) := by
  obtain ⟨hminus, hplus, -, -⟩ := isDigit_ne h
  simp [splitSign, hminus, hplus]

/-- A sign before a digit is split off. -/
theorem splitSign_of_sign {sign : Line} (hs : IsSign sign) {c : Char} (hc : isDigit c = true) (l : Line) :
    splitSign (sign ++ c :: l) = (decide (sign = ['-']), c :: l) := by
  simp only [IsSign, List.mem_cons, List.not_mem_nil, or_false] at hs
  rcases hs with rfl | rfl | rfl
  · exact splitSign_of_digit hc l
  · rfl
  · rfl

/-- Whatever `splitSign` takes off is a sign of the grammar. -/
theorem exists_sign (l : Line) :
    ∃ sign, IsSign sign ∧ l = sign ++ (splitSign l).2 ∧ (splitSign l).1 = decide (sign = ['-']) := by
  cases l with
  | nil => exact ⟨[], by simp, rfl, rfl⟩
  | cons c cs =>
    by_cases hminus : c = '-'
    · exact ⟨['-'], by simp, by simp [splitSign, hminus], by simp [splitSign, hminus]⟩
    · by_cases hplus : c = '+'
      · exact ⟨['+'], by simp, by simp [splitSign, hplus], by simp [splitSign, hplus]⟩
      · exact ⟨[], by simp, by simp [splitSign, hminus, hplus], by simp [splitSign, hminus, hplus]⟩

/-- R127: neither a sign nor a digit is a blank. -/
theorem dropWhile_isBlank_sign {sign : Line} (hs : IsSign sign) {c : Char} (hc : isDigit c = true) (l : Line) :
    (sign ++ c :: l).dropWhile isBlank = sign ++ c :: l := by
  simp only [IsSign, List.mem_cons, List.not_mem_nil, or_false] at hs
  obtain ⟨-, -, hspace, htab⟩ := isDigit_ne hc
  rcases hs with rfl | rfl | rfl
  · simp [isBlank, hspace, htab]
  · simp [isBlank]
  · simp [isBlank]

/-- Digits end where blanks begin. -/
theorem span_isDigit_blanks {post : Line} (h : ∀ c ∈ post, isBlank c = true) :
    post.takeWhile isDigit = [] ∧ post.dropWhile isDigit = post := by
  cases post with
  | nil => exact ⟨rfl, rfl⟩
  | cons c cs =>
    have hc : ¬ isDigit c = true := fun hd => by
      obtain ⟨-, -, hspace, htab⟩ := isDigit_ne hd
      rcases isBlank_iff.1 (h c (by simp)) with hb | hb
      · exact hspace hb
      · exact htab hb
    exact ⟨by simp [hc], by simp [hc]⟩

/-- R127: ParseInt on a line given by the parts of the grammar is the range check of its value. -/
theorem parseInt_parts (c : Config) {pre sign digits post : Line} (hpre : ∀ x ∈ pre, isBlank x = true)
    (hs : IsSign sign) (hne : digits ≠ []) (hd : ∀ x ∈ digits, isDigit x = true)
    (hpost : ∀ x ∈ post, isBlank x = true) :
    parseInt c (pre ++ sign ++ digits ++ post) =
      if InRange c (signed (decide (sign = ['-'])) (digitsValue digits))
      then some (signed (decide (sign = ['-'])) (digitsValue digits)) else none := by
  obtain ⟨x, xs, rfl⟩ := List.exists_cons_of_ne_nil hne
  have hx : isDigit x = true := hd x (by simp)
  obtain ⟨htake, hdrop⟩ := span_isDigit_blanks hpost
  have hblanks : (pre ++ sign ++ x :: xs ++ post).dropWhile isBlank = sign ++ x :: (xs ++ post) := by
    rw [show pre ++ sign ++ x :: xs ++ post = pre ++ (sign ++ x :: (xs ++ post)) by simp,
      List.dropWhile_append_of_pos hpre, dropWhile_isBlank_sign hs hx]
  have hdigits : (x :: (xs ++ post)).takeWhile isDigit = x :: xs := by
    rw [← List.cons_append, List.takeWhile_append_of_pos hd, htake, List.append_nil]
  have hrest : (x :: (xs ++ post)).dropWhile isDigit = post := by
    rw [← List.cons_append, List.dropWhile_append_of_pos hd, hdrop]
  have hall : post.all isBlank = true := List.all_eq_true.2 hpost
  simp only [parseInt, hblanks, splitSign_of_sign hs hx, hdigits, hrest, hall, ne_eq, hne, not_false_eq_true, true_and]

/-- R127: a line that ParseInt takes has the parts of the grammar. -/
theorem parseInt_some {c : Config} {line : Line} {v : Word} (h : parseInt c line = some v) :
    ∃ pre sign digits post : Line, line = pre ++ sign ++ digits ++ post ∧ (∀ x ∈ pre, isBlank x = true) ∧
      (∀ x ∈ post, isBlank x = true) ∧ IsSign sign ∧ digits ≠ [] ∧ (∀ x ∈ digits, isDigit x = true) ∧
      v = signed (decide (sign = ['-'])) (digitsValue digits) ∧ InRange c v := by
  obtain ⟨sign, hs, hsplit, hneg⟩ := exists_sign (line.dropWhile isBlank)
  simp only [parseInt] at h
  split at h
  · rename_i hok
    obtain ⟨hne, hpost, hr⟩ := hok
    cases h
    refine ⟨line.takeWhile isBlank, sign, _, _, ?_, fun x hx => List.mem_takeWhile_imp hx, List.all_eq_true.1 hpost,
      hs, hne, fun x hx => List.mem_takeWhile_imp hx, by rw [hneg], hr⟩
    rw [List.append_assoc, List.takeWhile_append_dropWhile, List.append_assoc, ← hsplit,
      List.takeWhile_append_dropWhile]
  · cases h

/-- Settles O53: one direction is `parseInt_some`, the other `parseInt_parts`. -/
theorem parseIsTheGrammar : Obligations.ParseIsTheGrammar := by
  intro c line v
  simp only [← isBlank_iff]
  have hsigned (sign digits : Line) : signed (decide (sign = ['-'])) (digitsValue digits) =
      if sign = ['-'] then -(digitsValue digits : Int) else (digitsValue digits : Int) := by
    simp [signed]
  constructor
  · intro h
    obtain ⟨pre, sign, digits, post, hline, hpre, hpost, hs, hne, hd, hv, hr⟩ := parseInt_some h
    exact ⟨pre, sign, digits, post, hline, hpre, hpost, hs, hne, hd, hv.trans (hsigned sign digits), hr⟩
  · rintro ⟨pre, sign, digits, post, rfl, hpre, hpost, hs, hne, hd, hv, hr⟩
    rw [← hsigned] at hv
    rw [parseInt_parts c hpre hs hne hd hpost, ← hv, if_pos hr]

/-- Settles O54: the rendered word has the parts of the grammar, no blanks among them. -/
theorem parseOfRenderedWord : Obligations.ParseOfRenderedWord := by
  intro c v hr
  obtain ⟨hne, hd, hvalue, -⟩ := decNat_isDecimal v.natAbs
  have parts {sign : Line} (hs : IsSign sign) (hv : signed (decide (sign = ['-'])) v.natAbs = v) :
      parseInt c (sign ++ decNat v.natAbs) = some v := by
    have h := parseInt_parts c (pre := []) (post := []) (by simp) hs hne hd (by simp)
    rw [hvalue, hv, if_pos hr] at h
    simpa using h
  rw [dec]
  split
  · exact parts (sign := ['-']) (by simp) (by change -(v.natAbs : Int) = v; omega)
  · exact parts (sign := []) (by simp) (by change (v.natAbs : Int) = v; omega)

end Sys2Proof.Proofs.Text
end

section
/-! PROOFS. Memory as data (R50, R52, R57): the last write, the canonical form, a loaded image. -/

namespace Sys2Proof.Proofs.MemoryData

open Sys2Proof Sys2Proof.Machine

/-- In canonical form the listed pairs are the cells that do not read as 0. -/
theorem mem_iff_read {m : Memory} (hm : m.wf) (a : Nat) (v : Word) : (a, v) ∈ m ↔ m.read a = v ∧ v ≠ 0 := by
  induction m with
  | nil => simp [Memory.read, eq_comm]
  | cons c m ih =>
    obtain ⟨b, u⟩ := c
    obtain ⟨hs, hz⟩ := hm
    obtain ⟨hb, hs'⟩ := List.pairwise_cons.1 hs
    have hu : u ≠ 0 := hz (b, u) (by simp)
    have ih' : (a, v) ∈ m ↔ Memory.read m a = v ∧ v ≠ 0 := ih ⟨hs', fun c hc => hz c (by simp [hc])⟩
    by_cases hab : b = a
    · subst hab
      have hnot : (b, v) ∉ m := fun h => lt_irrefl b (hb _ h)
      simp only [Memory.read, if_true, List.mem_cons, Prod.mk.injEq, true_and, hnot, or_false]
      exact ⟨fun h => ⟨h.symm, h ▸ hu⟩, fun h => h.1.symm⟩
    · simp only [Memory.read, hab, if_false, List.mem_cons, Prod.mk.injEq, Ne.symm hab, false_and, false_or]
      exact ih'

/-- Settles O60: the reads tell which pairs are listed, and the order of the addresses tells in which order. -/
theorem canonicalMemoryIsUnique : Obligations.CanonicalMemoryIsUnique := by
  intro m n hm hn hread
  refine List.Perm.eq_of_pairwise (fun x y _ _ hxy hyx => absurd hxy (lt_asymm hyx)) hm.1 hn.1 ?_
  have nodup {m : Memory} (hm : m.wf) : m.Nodup := hm.1.imp fun h heq => absurd (heq ▸ h) (lt_irrefl _)
  refine (List.perm_ext_iff_of_nodup (nodup hm) (nodup hn)).2 fun ⟨a, v⟩ => ?_
  rw [mem_iff_read hm, mem_iff_read hn, hread]

/-- Settles O59, by induction on the history from its last write back. -/
theorem readReturnsLastWrite : Obligations.ReadReturnsLastWrite := by
  intro writes a
  induction writes using List.reverseRecOn with
  | nil => exact ⟨rfl, by simp, by simp⟩
  | append_singleton ws w ih =>
    obtain ⟨hread, hwf⟩ := ih
    simp only [List.foldl_append, List.foldl_cons, List.foldl_nil, List.reverse_append, List.reverse_cons,
      List.reverse_nil, List.nil_append, List.singleton_append]
    refine ⟨?_, Memory.write_wf hwf w.1 w.2⟩
    by_cases haw : w.1 = a
    · subst haw
      rw [Memory.read_write_same hwf, List.find?_cons_of_pos (by simp)]
      rfl
    · rw [Memory.read_write_other _ _ (Ne.symm haw), List.find?_cons_of_neg (by simpa using haw), hread]

/-- A read of two lists one after the other, the second of which does not list the address. -/
theorem read_append_of_not_listed (m : Memory) {n : Memory} {a : Nat} (h : ∀ c ∈ n, c.1 ≠ a) :
    Memory.read (m ++ n) a = Memory.read m a := by
  induction m with
  | nil => simpa [Memory.read] using Memory.read_append n [] a h
  | cons c m ih => simp only [List.cons_append, Memory.read, ih]

/-- R57: a loaded image reads back word by word, and as 0 past it up to CAP. -/
theorem read_loadImage {cap a : Nat} (ws : List Word) (m : Memory) (ha : a < cap) :
    (Memory.loadImage cap ws m).read a = ws.getD a 0 := by
  have hpast : ∀ c ∈ m.filter (fun c => decide (cap ≤ c.1)), c.1 ≠ a := fun c hc => by
    have hle : cap ≤ c.1 := by simpa using (List.mem_filter.1 hc).2
    omega
  rw [Memory.loadImage, read_append_of_not_listed _ hpast, Memory.read_ofWords, if_pos (Nat.zero_le a), Nat.sub_zero]

/-- A cell that the write did not name keeps its word, and so a changed cell is the one named. -/
theorem eq_of_read_write_ne {m : Memory} {a b : Nat} {v : Word} (h : (Memory.write m a v).read b ≠ m.read b) :
    b = a := by
  by_contra hab
  exact h (Memory.read_write_other m v hab)

end Sys2Proof.Proofs.MemoryData
end

section
/-! PROOFS. The words of program lines and back (R88, R91, R93). -/

namespace Sys2Proof.Proofs.Lines

open Sys2Proof Sys2Proof.Machine Sys2Proof.Proofs.Text

theorem isDigit_of_mem_line4 {o a : Nat} {c : Char} (h : c ∈ line4 o a) : isDigit c = true := by
  rcases List.mem_append.1 h with h | h
  · exact isDigit_of_mem_decPadded h
  · exact isDigit_of_mem_decPadded h

/-- R85: a line of digits is its own core, without a sign. -/
theorem splitSign_of_digits {l : Line} (h : ∀ c ∈ l, isDigit c = true) : splitSign l = (false, l) := by
  cases l with
  | nil => rfl
  | cons c cs => exact splitSign_of_digit (h c (by simp)) cs

theorem splitSign_minus (l : Line) : splitSign ('-' :: l) = (true, l) := rfl

/-- R88: the word of a line of digits, and of the line with a minus sign before it. -/
theorem lineWord_of_digits {l : Line} (h : ∀ c ∈ l, isDigit c = true) :
    lineWord l = (digitsValue (padCore l) : Int) ∧ lineWord ('-' :: l) = -(digitsValue (padCore l) : Int) := by
  constructor
  · rw [lineWord, coreOf, splitSign_of_digits h]
    rfl
  · rw [lineWord, coreOf, splitSign_minus]
    rfl

/-- R88: a core of six digits is laid out already. -/
theorem padCore_of_length_six {l : Line} (h : l.length = 6) : padCore l = l := by
  unfold padCore
  split
  · simp at h
  · rfl

/-- R88: six digits stand for the number they write. -/
theorem digitsValue_padCore_six {n : Nat} (h : n ≤ 999999) : digitsValue (padCore (decPadded 6 n)) = n := by
  have hn : n < 10 ^ 6 := by omega
  rw [padCore_of_length_six (length_decPadded 6 n), digitsValue, digitsValueFrom_decPadded 0 hn]
  omega

/-- R88: the padding writes a 0 before each half. -/
theorem padCore_line4 (o a : Nat) : padCore (line4 o a) = '0' :: decPadded 2 o ++ '0' :: decPadded 2 a := rfl

theorem digitsValueFrom_zero_cons (n : Nat) (l : Line) : digitsValueFrom n ('0' :: l) = digitsValueFrom (10 * n) l := by
  rw [digitsValueFrom, show digitVal '0' = 0 by decide, Nat.add_zero]

/-- R88: four digits, padded, stand for `enc(o, a)`. -/
theorem digitsValue_padCore_line4 {o a : Nat} (ho : o ≤ 99) (ha : a ≤ 99) :
    digitsValue (padCore (line4 o a)) = o * 1000 + a := by
  have ho' : o < 10 ^ 2 := by omega
  have ha' : a < 10 ^ 2 := by omega
  rw [padCore_line4, digitsValue, digitsValueFrom_append, digitsValueFrom_zero_cons, digitsValueFrom_zero_cons,
    digitsValueFrom_decPadded _ ho', digitsValueFrom_decPadded _ ha']
  omega

/-- R88, R93: the words of the compact line without and with a minus sign. -/
theorem lineWord_line4 {o a : Nat} (ho : o ≤ 99) (ha : a ≤ 99) :
    lineWord (line4 o a) = ((o * 1000 + a : Nat) : Int) ∧
    lineWord ('-' :: line4 o a) = -((o * 1000 + a : Nat) : Int) := by
  rw [← digitsValue_padCore_line4 ho ha]
  exact lineWord_of_digits fun _ => isDigit_of_mem_line4

/-- R88: the words of a six-digit line without and with a minus sign. -/
theorem lineWord_decPadded_six {n : Nat} (h : n ≤ 999999) :
    lineWord (decPadded 6 n) = (n : Int) ∧ lineWord ('-' :: decPadded 6 n) = -(n : Int) := by
  have hw := lineWord_of_digits fun _ => isDigit_of_mem_decPadded (k := 6) (n := n)
  rwa [digitsValue_padCore_six h] at hw

/-- Settles O48: both forms of line write the digits of `1000 o + a`. -/
theorem compactAndExtendedLinesAgree : Obligations.CompactAndExtendedLinesAgree := by
  intro o a ho ha
  obtain ⟨hplus, hminus⟩ := lineWord_line4 ho ha
  exact ⟨hplus, (lineWord_decPadded_six (by omega)).1, hminus⟩

/-- R91: the digits that the inverse padding keeps are those of the four-digit line. -/
theorem unload4_digits {o a : Nat} (ha : a ≤ 99) :
    ((decPadded 6 (o * 1000 + a)).drop 1).take 2 ++ ((decPadded 6 (o * 1000 + a)).drop 4).take 2 = line4 o a := by
  have hhigh : (o * 1000 + a) / 1000 = o := by omega
  have hlow : (o * 1000 + a) % 100 = a := by omega
  have htail : decPadded 2 (o * 1000 + a) = decPadded 2 a := by rw [← decPadded_two_mod, hlow]
  rw [decPadded_six, hhigh, htail]
  rfl

/-- R91: unloading a word of the magnitude `1000 o + a`, by its sign. -/
theorem unload4_of_natAbs {v : Word} {o a : Nat} (ha : a ≤ 99) (hv : v.natAbs = o * 1000 + a) :
    unload4 v = if v < 0 then '-' :: line4 o a else line4 o a := by
  simp only [unload4, hv, unload4_digits ha]

/-- Settles O49: the digits come back from the magnitude, the sign from the word unless it is 0. -/
theorem fourDigitLineIsRecovered : Obligations.FourDigitLineIsRecovered := by
  intro o a ho ha
  obtain ⟨hplus, hminus⟩ := lineWord_line4 ho ha
  rw [hplus, hminus]
  have hmag : ((o * 1000 + a : Nat) : Int).natAbs = o * 1000 + a := Int.natAbs_natCast _
  have hmag' : (-((o * 1000 + a : Nat) : Int)).natAbs = o * 1000 + a := (Int.natAbs_neg _).trans hmag
  refine ⟨?_, fun hne => ?_, fun hzero => ?_⟩
  · exact (unload4_of_natAbs ha hmag).trans (if_neg (Int.natCast_nonneg _).not_gt)
  · exact (unload4_of_natAbs ha hmag').trans (if_pos (Int.neg_neg_of_pos (Int.natCast_pos.2 (by omega))))
  · obtain ⟨rfl, rfl⟩ := hzero
    exact (unload4_of_natAbs ha hmag').trans (if_neg (lt_irrefl 0))

/-- R91: the six-digit line of a word stands for the word. -/
theorem lineWord_unload6 {v : Word} (h : v.natAbs ≤ 999999) : lineWord (unload6 v) = v := by
  obtain ⟨hplus, hminus⟩ := lineWord_decPadded_six h
  rw [unload6]
  split
  next hv => rw [hminus, Int.ofNat_natAbs_of_nonpos (le_of_lt hv), neg_neg]
  next hv => rw [hplus, Int.natAbs_of_nonneg (not_lt.1 hv)]

/-- R91: the core of the six-digit line of a word. -/
theorem coreOf_unload6 (v : Word) : coreOf (unload6 v) = decPadded 6 v.natAbs := by
  rw [unload6]
  split
  · rfl
  · rw [coreOf, splitSign_of_digits fun _ => isDigit_of_mem_decPadded]

/-- R72, R88: a line that passes the checks stands for a word of at most six digits. -/
theorem natAbs_lineWord_le {l : Line} (hd : LineNumeric l) (hl : LineLength l) : (lineWord l).natAbs ≤ 999999 := by
  have hmag : (lineWord l).natAbs = digitsValue (padCore (coreOf l)) := by
    rw [lineWord, signed]
    split
    · rw [Int.natAbs_neg, Int.natAbs_natCast]
    · rw [Int.natAbs_natCast]
  have hsix : (padCore (coreOf l)).length = 6 ∧ ∀ c ∈ padCore (coreOf l), isDigit c = true := by
    rcases hl with hl | hl
    · obtain ⟨c0, c1, c2, c3, hcore⟩ := List.length_eq_four.1 hl
      have hzero : isDigit '0' = true := by decide
      rw [LineNumeric, hcore] at hd
      simp only [List.forall_mem_cons] at hd
      obtain ⟨h0, h1, h2, h3, -⟩ := hd
      rw [hcore]
      simp [padCore, hzero, h0, h1, h2, h3]
    · rw [padCore_of_length_six hl]
      exact ⟨hl, hd⟩
  have hlt := digitsValueFrom_lt hsix.2 0
  rw [hsix.1] at hlt
  rw [hmag, digitsValue]
  omega

end Sys2Proof.Proofs.Lines
end

section
/-! PROOFS. The loader (R55, R84 to R91): its checks as one condition, and the load transaction. -/

namespace Sys2Proof.Proofs.Load

open Sys2Proof Sys2Proof.Machine

/-! ### The checks -/

/-- R85 to R87: the checks of one line pass exactly when all three conditions hold. -/
theorem checkLine_eq_ok_iff (first : Option Nat) (l : Line) :
    checkLine first l = .ok ↔
      LineNumeric l ∧ LineLength l ∧ (coreOf l).length = first.getD (coreOf l).length := by
  obtain ⟨hnumeric, hlength, hmatch, hok⟩ := checkLine_eq first l
  constructor
  · intro h
    by_cases h1 : LineNumeric l
    · by_cases h2 : LineLength l
      · by_cases h3 : (coreOf l).length = first.getD (coreOf l).length
        · exact ⟨h1, h2, h3⟩
        · exact absurd (h.symm.trans (hmatch h1 h2 h3)) (by decide)
      · exact absurd (h.symm.trans (hlength h1 h2)) (by decide)
    · exact absurd (h.symm.trans (hnumeric h1)) (by decide)
  · rintro ⟨h1, h2, h3⟩
    exact hok h1 h2 h3

/-- R89: a line that fails a check decides the answer. -/
theorem checkLines_of_failing {first : Option Nat} {l : Line} {code : LoadCode} (h : checkLine first l = code)
    (hne : code ≠ .ok) (after : List Line) : checkLines first (l :: after) = code := by
  rw [checkLines, h]
  cases code with
  | ok => exact absurd rfl hne
  | badLength => rfl
  | lengthMismatch => rfl
  | notNumeric => rfl
  | imageTooLarge => rfl
  | busy => rfl

/-- R89: the checks of all lines pass exactly when every line passes its own, held to the length fixed before or by
line 0. -/
theorem checkLines_eq_ok_iff (first : Option Nat) (ls : List Line) :
    checkLines first ls = .ok ↔
      ∀ l ∈ ls, LineNumeric l ∧ LineLength l ∧ (coreOf l).length = first.getD (coreOf (ls.headD [])).length := by
  induction ls generalizing first with
  | nil => simp [checkLines]
  | cons l ls ih =>
    rw [List.forall_mem_cons, List.headD_cons, ← checkLine_eq_ok_iff]
    by_cases hl : checkLine first l = .ok
    · rw [checkLines, hl]
      simp only [ih, Option.getD_some, true_and]
    · rw [checkLines_of_failing rfl hl]
      simp only [hl, false_and]

/-- R89: past the size check, the answer is that of the lines. -/
theorem checkProgram_of_le {cap : Nat} {ls : List Line} (h : ls.length ≤ cap) :
    checkProgram cap ls = checkLines none ls := by
  rw [checkProgram, if_neg (Nat.not_lt.2 h)]

theorem checkProgram_of_lt {cap : Nat} {ls : List Line} (h : cap < ls.length) :
    checkProgram cap ls = .imageTooLarge := by
  rw [checkProgram, if_pos h]

/-- R89: a program is accepted exactly when it fits and every line is good. -/
theorem checkProgram_eq_ok_iff {cap : Nat} {ls : List Line} :
    checkProgram cap ls = .ok ↔ ls.length ≤ cap ∧ ∀ l ∈ ls, LineGood ls l := by
  by_cases h : cap < ls.length
  · rw [checkProgram_of_lt h]
    exact ⟨nofun, fun hle => absurd hle.1 (Nat.not_le.2 h)⟩
  · have hle : ls.length ≤ cap := Nat.le_of_not_lt h
    rw [checkProgram_of_le hle, checkLines_eq_ok_iff]
    exact ⟨fun hl => ⟨hle, hl⟩, And.right⟩

/-- Settles O52: good lines have the length of line 0, which is 4 or 6. -/
theorem loaderAcceptsUniformLines : Obligations.LoaderAcceptsUniformLines := by
  intro cap ls
  rw [checkProgram_eq_ok_iff]
  refine and_congr_right fun _ => ⟨fun hgood => ?_, ?_⟩
  · cases ls with
    | nil => exact ⟨4, .inl rfl, by simp⟩
    | cons l0 ls =>
      obtain ⟨-, hlen, -⟩ := hgood l0 (by simp)
      exact ⟨(coreOf l0).length, hlen, fun l hl => ⟨(hgood l hl).2.2, (hgood l hl).1⟩⟩
  · rintro ⟨n, hn, hall⟩ l hl
    have hhead : ls.headD [] ∈ ls := by
      cases ls with
      | nil => simp at hl
      | cons l0 ls => simp
    obtain ⟨hlen, hdigits⟩ := hall l hl
    refine ⟨hdigits, ?_, hlen.trans (hall _ hhead).1.symm⟩
    rw [LineLength, hlen]
    exact hn

/-- R89: BUSY is no answer of the checks of one line. -/
theorem checkLine_ne_busy (first : Option Nat) (l : Line) : checkLine first l ≠ .busy := by
  obtain ⟨hnumeric, hlength, hmatch, hok⟩ := checkLine_eq first l
  by_cases h1 : LineNumeric l
  · by_cases h2 : LineLength l
    · by_cases h3 : (coreOf l).length = first.getD (coreOf l).length
      · simp [hok h1 h2 h3]
      · simp [hmatch h1 h2 h3]
    · simp [hlength h1 h2]
  · simp [hnumeric h1]

theorem checkLines_ne_busy (first : Option Nat) (ls : List Line) : checkLines first ls ≠ .busy := by
  induction ls generalizing first with
  | nil => simp [checkLines]
  | cons l ls ih =>
    by_cases hl : checkLine first l = .ok
    · rw [checkLines, hl]
      exact ih _
    · rw [checkLines_of_failing rfl hl]
      exact checkLine_ne_busy first l

/-- BUSY is no answer of the checks (log entry 9). -/
theorem checkProgram_ne_busy (cap : Nat) (ls : List Line) : checkProgram cap ls ≠ .busy := by
  rw [checkProgram]
  split
  · simp
  · exact checkLines_ne_busy none ls

/-- R89: after good lines, the next line is held to the length of line 0, and where it fails a check that check is the
answer. -/
theorem checkLines_first_failing {before after : List Line} {l : Line} {code : LoadCode} (hne : code ≠ .ok)
    (hbefore : ∀ k ∈ before, LineGood (before ++ l :: after) k)
    (hl : ∀ first : Option Nat,
      first.getD (coreOf l).length = (coreOf ((before ++ l :: after).headD [])).length → checkLine first l = code) :
    checkLines none (before ++ l :: after) = code := by
  rw [checkLines_append none before (l :: after) hbefore]
  refine checkLines_of_failing (hl _ ?_) hne after
  cases before with
  | nil => rfl
  | cons k ks => rfl

/-! ### The transaction -/

section Transaction

variable {s : State} {ls : List Line} {q : List HostEvent}

/-- R55: a load next in the queue is taken at once, in any STATE. -/
theorem step_of_loadProgram (hq : s.hostq = .loadProgram ls :: q) :
    step s = .next (loadProgram ls (s.setHostq q)) :=
  step_of_first hq (.inl nofun)

/-- R55: the code a load answers. -/
def loadCode (s : State) (ls : List Line) : LoadCode :=
  if s.inProgress then .busy else checkProgram s.cfg.cap ls

/-- R55, R225: a load changes nothing but memory, and answers its code. -/
theorem loadProgram_frame (s : State) (ls : List Line) :
    loadProgram ls s = { s with mem := (loadProgram ls s).mem, replies := s.replies ++ [.load (loadCode s ls)] } := by
  rw [loadCode]
  rcases loadProgram_cases ls s with ⟨hp, heq⟩ | ⟨hp, hc, heq⟩ | ⟨hp, -, heq⟩
  · rw [heq, hp]
    rfl
  · rw [heq, hp, hc]
    rfl
  · rw [heq, hp]
    rfl

/-- R57, R89: memory after a load is the image's where the code is OK, and is unchanged where it is not. -/
theorem mem_loadProgram (s : State) (ls : List Line) :
    (loadProgram ls s).mem =
      if loadCode s ls = .ok then s.mem.loadImage s.cfg.cap (ls.map lineWord) else s.mem := by
  rw [loadCode]
  rcases loadProgram_cases ls s with ⟨hp, heq⟩ | ⟨hp, hc, heq⟩ | ⟨hp, hc, heq⟩
  · rw [heq, hp]
    rfl
  · rw [heq, hp, hc]
    rfl
  · rw [heq, hp]
    exact (if_neg hc).symm

/-- BUSY is answered exactly while a step is in progress (log entry 9). -/
theorem loadCode_eq_busy_iff : loadCode s ls = .busy ↔ s.inProgress = true := by
  rw [loadCode]
  split
  · exact iff_of_true rfl ‹_›
  · exact iff_of_false (checkProgram_ne_busy _ ls) ‹_›

theorem loadCode_of_not_inProgress (hp : s.inProgress = false) : loadCode s ls = checkProgram s.cfg.cap ls := by
  rw [loadCode, hp]
  rfl

end Transaction

/-- Settles O51: the reply is `loadCode`, memory follows it, and the checks give it line by line. -/
theorem loadIsAllOrNothing : Obligations.LoadIsAllOrNothing := by
  intro s ls q hq
  have hcode : loadCode (s.setHostq q) ls = loadCode s ls := rfl
  have hmem := mem_loadProgram (s.setHostq q) ls
  rw [hcode] at hmem
  refine ⟨loadProgram ls (s.setHostq q), loadCode s ls, step_of_loadProgram hq, loadProgram_frame (s.setHostq q) ls,
    fun hok i hi => ?_, fun hne => hmem.trans (if_neg hne), loadCode_eq_busy_iff, fun hp hlt => ?_, fun hp hle => ?_⟩
  · rw [State.cell, hmem, if_pos hok]
    exact MemoryData.read_loadImage _ _ hi
  · rw [loadCode_of_not_inProgress hp, checkProgram_of_lt hlt]
  · rw [loadCode_of_not_inProgress hp]
    refine ⟨fun hgood => checkProgram_eq_ok_iff.2 ⟨hle, hgood⟩, ?_⟩
    rw [checkProgram_of_le hle]
    rintro before l after rfl hbefore
    refine ⟨fun h1 => ?_, fun h1 h2 => ?_, fun h1 h2 h3 => ?_⟩
    · refine checkLines_first_failing nofun hbefore fun first _ => ?_
      obtain ⟨hnumeric, -⟩ := checkLine_eq first l
      exact hnumeric h1
    · refine checkLines_first_failing nofun hbefore fun first _ => ?_
      obtain ⟨-, hlength, -⟩ := checkLine_eq first l
      exact hlength h1 h2
    · refine checkLines_first_failing nofun hbefore fun first hfirst => ?_
      obtain ⟨-, -, hmatch, -⟩ := checkLine_eq first l
      exact hmatch h1 h2 (hfirst ▸ h3)

/-- Settles O50: the six-digit lines pass the checks, stand for the image, and the image reads back. -/
theorem sixDigitLoadReadsBack : Obligations.SixDigitLoadReadsBack := by
  intro s ws q hws hlen hp hq
  have hwords : (ws.map unload6).map lineWord = ws := by
    rw [List.map_map]
    exact (List.map_congr_left fun v hv => Lines.lineWord_unload6 (hws v hv)).trans (List.map_id ws)
  have hcore : ∀ l ∈ ws.map unload6, (coreOf l).length = 6 ∧ ∀ c ∈ coreOf l, isDigit c = true := fun l hl => by
    obtain ⟨v, -, rfl⟩ := List.mem_map.1 hl
    rw [Lines.coreOf_unload6]
    exact ⟨Text.length_decPadded 6 _, fun _ => Text.isDigit_of_mem_decPadded⟩
  have hok : loadCode (s.setHostq q) (ws.map unload6) = .ok := by
    rw [loadCode_of_not_inProgress (s := s.setHostq q) hp]
    exact (loaderAcceptsUniformLines _ _).2 ⟨by simpa using hlen, 6, .inr rfl, hcore⟩
  have hframe := loadProgram_frame (s.setHostq q) (ws.map unload6)
  rw [hok] at hframe
  refine ⟨_, step_of_loadProgram hq, fun i hi => ?_, hframe⟩
  rw [State.cell, mem_loadProgram, if_pos hok, hwords]
  exact MemoryData.read_loadImage ws _ hi

end Sys2Proof.Proofs.Load
end

section
/-! PROOFS. The exact integers behind the words: truncated division (R151) and the stored bits (R11, R54). -/

namespace Sys2Proof.Proofs.Numbers

open Sys2Proof Sys2Proof.Machine

/-- R11: the range reaches from `-N` to `N - 1`, with `N = 2^(W-1)`. -/
theorem inRange_iff {c : Config} {v : Int} :
    InRange c v ↔ -((2 ^ (c.w - 1) : Nat) : Int) ≤ v ∧ v < ((2 ^ (c.w - 1) : Nat) : Int) :=
  and_congr_right fun _ => Int.le_sub_one_iff

/-- R21, R57: 0 is a word. -/
theorem inRange_zero (c : Config) : InRange c 0 := by
  have hpos : 0 < 2 ^ (c.w - 1) := Nat.two_pow_pos _
  rw [inRange_iff]
  omega

/-- R151: a divisor of magnitude 2 or more at least halves a word, and so leaves it in range. -/
theorem inRange_tdiv_of_two_le {c : Config} {x y : Int} (hx : InRange c x) (hy : 2 ≤ y.natAbs) :
    InRange c (x.tdiv y) := by
  have hpos : 0 < 2 ^ (c.w - 1) := Nat.two_pow_pos _
  have hmag : (x.tdiv y).natAbs = x.natAbs / y.natAbs := Int.natAbs_tdiv x y
  have hhalf : x.natAbs / y.natAbs ≤ x.natAbs / 2 := Nat.div_le_div_left hy (by decide)
  rw [inRange_iff] at hx ⊢
  omega

/-- R156: of the two divisors of magnitude 1 only -1 leads out of the range, and only from the least word. -/
theorem inRange_neg_iff {c : Config} {x : Int} (hx : InRange c x) : ¬ InRange c (-x) ↔ x = wordMin c := by
  rw [inRange_iff] at hx ⊢
  rw [wordMin]
  omega

/-- Settles O56: the magnitude of the divisor is 1 or at least 2. -/
theorem divisionTruncatesAndOverflowsOnce : Obligations.DivisionTruncatesAndOverflowsOnce := by
  intro c x y _ hy
  rw [Arithmetic.tdiv_eq_int_tdiv]
  refine ⟨rfl, Int.natAbs_tdiv x y, fun hx _ => ?_⟩
  by_cases hone : y.natAbs = 1
  · rcases Int.natAbs_eq_iff.1 hone with rfl | rfl
    · rw [Nat.cast_one, Int.tdiv_one]
      exact iff_of_false (not_not.2 hx) fun h => absurd h.2 (by decide)
    · rw [Nat.cast_one, Int.tdiv_neg, Int.tdiv_one, inRange_neg_iff hx]
      exact (and_iff_left rfl).symm
  · have hin : InRange c (x.tdiv y) := inRange_tdiv_of_two_le hx (by omega)
    refine iff_of_false (not_not.2 hin) ?_
    rintro ⟨-, rfl⟩
    exact hone rfl

/-- Settles O57: reading `W` bits back is the balanced remainder modulo `2^W`. -/
theorem storedBitsGiveTheWordBack : Obligations.StoredBitsGiveTheWordBack := by
  rintro c v ⟨hw, -, -⟩
  have hdouble : 2 ^ c.w = 2 * 2 ^ (c.w - 1) := by
    rw [← pow_succ', Nat.sub_add_cancel (by omega)]
  rw [Word.ofBits, Word.toBits, BitVec.toInt_ofInt, Int.bmod_eq_iff (Nat.two_pow_pos _), inRange_iff, hdouble]
  simp only [sub_self, dvd_zero, and_true]
  omega

end Sys2Proof.Proofs.Numbers
end

section
/-! PROOFS. Where each instruction completes, from its operation alone. -/

namespace Sys2Proof.Proofs.Completion

open Sys2Proof Sys2Proof.Machine

/-- Settles O17: the checked access has its completing end below CAP. -/
theorem loadStoreWriteComplete : Obligations.LoadStoreWriteComplete := by
  intro a s ha
  exact ⟨LoadStore.exec_load_of_lt_cap ha, LoadStore.exec_store_of_lt_cap ha, Io.exec_write_of_lt_cap ha⟩

/-- Settles O18: past the checked read, and for DIVIDE the zero check, an exact result in range is committed. -/
theorem arithmeticCompletes : Obligations.ArithmeticCompletes := by
  intro a s ha
  refine ⟨fun hr => ?_, fun hr => ?_, fun hd hr => ?_, fun hr => ?_⟩
  · rw [Arithmetic.exec_add, checkedRead_of_lt _ ha]
    exact writeAccChecked_of_inRange hr
  · rw [Arithmetic.exec_subtract, checkedRead_of_lt _ ha]
    exact writeAccChecked_of_inRange hr
  · rw [Arithmetic.exec_divide, checkedRead_of_lt _ ha, if_neg hd]
    exact writeAccChecked_of_inRange hr
  · rw [Arithmetic.exec_multiply, checkedRead_of_lt _ ha]
    exact writeAccChecked_of_inRange hr

/-- Settles O19: each of the four commits its choice of the next PC. -/
theorem controlCompletes : Obligations.ControlCompletes := by
  intro a s
  refine ⟨rfl, fun hneg => ?_, fun hneg => ?_, fun hzero => ?_, fun hzero => ?_, ?_⟩
  · rw [Control.exec_branchneg, if_pos hneg]
    rfl
  · rw [Control.exec_branchneg, if_neg (not_lt.2 hneg)]
    rfl
  · rw [Control.exec_branchzero, if_pos hzero]
    rfl
  · rw [Control.exec_branchzero, if_neg hzero]
    rfl
  · rw [Control.exec_halt, Control.finishedLine_eq]
    exact congrArg _ (Control.commit_bound (s.emit _))

/-- Settles O20: a line that is ready and parses ends the READ below CAP. -/
theorem readCompletes : Obligations.ReadCompletes := by
  intro a s line rest v hi hp ha
  exact (Io.exec_read_of_line hi).trans (Io.finishRead_of_lt_cap hp ha)

end Sys2Proof.Proofs.Completion
end

section
/-! PROOFS. STEP and the other host transactions in each STATE (R55, R112, R113, R129, R220). -/

namespace Sys2Proof.Proofs.Transactions

open Sys2Proof Sys2Proof.Machine

section Taking

variable {s : State}

/-- Between steps the transaction taken is the first one queued. -/
theorem hostq_of_takeEvent {e : HostEvent} {q : List HostEvent} (hp : s.inProgress = false)
    (h : takeEvent s.inProgress s.hostq = some (e, q)) : s.hostq = e :: q := by
  obtain ⟨-, n, hq, -, hn⟩ := takeEvent_some h
  rw [hn hp] at hq
  exact hq

theorem not_inProgress_of_ready (hr : s.runState = .ready) : s.inProgress = false := by
  rw [State.inProgress, hr]

theorem not_inProgress_of_stopped (hr : s.runState = .halted ∨ s.runState = .faulted) : s.inProgress = false := by
  rcases hr with hr | hr
  · rw [State.inProgress, hr]
  · rw [State.inProgress, hr]

theorem inProgress_of_waiting (hr : s.runState = .waitInput) : s.inProgress = true :=
  inProgress_iff.2 (.inr hr)

/-- R112: an accepted STEP is taken from the queue, if it stood there, and answered by its STATE. -/
theorem step_of_stepIsNext (h : StepIsNext s) : step s = stepRequest (s.setHostq s.hostq.tail) := by
  rcases h with hq | ⟨hp, hhead⟩
  · have hs : s.setHostq s.hostq.tail = s := by
      rw [hq, List.tail_nil, ← hq]
      rfl
    rw [hs, step, transition, hq]
    rfl
  · obtain ⟨q, hq⟩ := List.head?_eq_some_iff.1 hhead
    rw [step_of_first hq (.inr hp), hq]
    rfl

/-- R113: a STEP in HALTED or FAULTED has no effect. -/
theorem stepRequest_of_stopped (hr : s.runState = .halted ∨ s.runState = .faulted) : stepRequest s = .next s := by
  rcases hr with hr | hr
  · rw [stepRequest, hr]
  · rw [stepRequest, hr]

theorem stepRequest_of_ready (hr : s.runState = .ready) : stepRequest s = runInstruction s := by
  rw [stepRequest, hr]

end Taking

/-- Settles O2: the fetch answers no word, and the fault is raised in the state the step began in. -/
theorem fetchBeyondCapacityFaults : Obligations.FetchBeyondCapacityFaults := by
  intro s hn hr hc
  have hc' : (s.setHostq s.hostq.tail).beginStep.cfg.cap ≤ (s.setHostq s.hostq.tail).beginStep.pc := hc
  rw [step_of_stepIsNext hn, stepRequest_of_ready (s := s.setHostq s.hostq.tail) hr, runInstruction, fetch_of_le hc']
  rfl

/-- Settles O3: the address check comes before the decode. -/
theorem addressCheckPrecedesDispatch : Obligations.AddressCheckPrecedesDispatch := by
  intro s w o a hf hw ha
  exact StepCycle.step_of_fetches_bound_le hf hw ha

/-- Settles O26: with no request outstanding the delivery answers the state it found. -/
theorem unrequestedLineIgnored : Obligations.UnrequestedLineIgnored := by
  intro s line q hi hq
  exact (step_of_first hq (.inl nofun)).trans (if_neg (Bool.eq_false_iff.1 hi))

/-- Settles O29: RESET is taken at once in any STATE, and leaves no request for a line to answer. -/
theorem resetTransaction : Obligations.ResetTransaction := by
  intro s q hq
  have hstep : step s = .next (s.setHostq q).resetCore := step_of_first hq (.inl nofun)
  refine ⟨hstep, fun line q' hline => ⟨_, hstep, ?_⟩⟩
  exact unrequestedLineIgnored _ line q' rfl hline

/-- Settles O30: the power-on state at the defaults, field by field. -/
theorem resetState : Obligations.ResetState :=
  ⟨rfl, rfl, rfl, rfl, rfl, by decide, rfl, rfl, fun _ => rfl, rfl⟩

/-! ### HALTED and FAULTED -/

/-- R195, R205: a transition from HALTED or FAULTED is RESET, the first transaction queued, or touches no register. -/
theorem transition_of_stopped {s t : State} (hr : s.runState = .halted ∨ s.runState = .faulted)
    (hi : s.inpend = false) (h : step s = .next t) :
    (s.hostq.head? = some .reset ∧ t.runState = .ready) ∨
    (t.runState = s.runState ∧ t.cause = s.cause ∧ t.pc = s.pc ∧ t.acc = s.acc ∧ t.ir = s.ir ∧
      t.irAtStart = s.irAtStart ∧ t.inpend = false ∧ t.out = s.out) := by
  cases step_next h with
  | none q hq => exact .inr ⟨rfl, rfl, rfl, rfl, rfl, rfl, hi, rfl⟩
  | run q t hq hready h => simp [hready] at hr
  | resume q line ls t hq hwait hl h => simp [hi] at hwait; simp [hwait] at hr
  | reset q ht =>
    rw [hostq_of_takeEvent (not_inProgress_of_stopped hr) ht]
    exact .inl ⟨rfl, rfl⟩
  | load q ls hp ht hc => exact .inr ⟨rfl, rfl, rfl, rfl, rfl, rfl, hi, rfl⟩
  | reply q r hq => exact .inr ⟨rfl, rfl, rfl, rfl, rfl, rfl, hi, rfl⟩

/-- Settles O28: the STEP by `stepRequest_of_stopped`, every other transaction by `transition_of_stopped`. -/
theorem haltedAndFaultedLeftOnlyByReset : Obligations.HaltedAndFaultedLeftOnlyByReset := by
  intro s hr hi
  refine ⟨fun hn => ?_, fun t ht hhead => ?_⟩
  · rw [step_of_stepIsNext hn]
    exact stepRequest_of_stopped (s := s.setHostq s.hostq.tail) hr
  · rcases transition_of_stopped hr hi ht with ⟨hreset, -⟩ | hkept
    · exact absurd hreset hhead
    · exact hkept

/-! ### Every transition answers -/

/-- R14: the rest of a READ answers a next state, with the request withdrawn and the wait over. -/
theorem finishRead_answers (a : Nat) (line : Line) {s : State} (hi : s.inpend = false) :
    ∃ t, finishRead a line s = .next t ∧ t.hostq = s.hostq ∧ t.inputs = s.inputs ∧ t.inpend = false ∧
      t.runState ≠ .waitInput := by
  cases hp : parseInt s.cfg line with
  | none => exact ⟨_, finishRead_of_invalid hp, rfl, rfl, rfl, nofun⟩
  | some v =>
    by_cases hc : s.cfg.cap ≤ a
    · exact ⟨_, Io.finishRead_of_cap_le hp hc, rfl, rfl, rfl, nofun⟩
    · exact ⟨_, Io.finishRead_of_lt_cap hp (Nat.lt_of_not_le hc), rfl, rfl, hi, commit_runState_ne _ _ nofun nofun⟩

theorem resumeRead_answers (line : Line) (s : State) : ∃ t, resumeRead line s = .next t := by
  obtain ⟨t, ht, -⟩ := finishRead_answers (operandOf s.ir) line (s := s.acceptInput) rfl
  exact ⟨t, ht⟩

/-- R14, R192: a step from READY answers a next state, whatever word it fetches. -/
theorem runInstruction_answers (s : State) : ∃ t, runInstruction s = .next t := by
  rw [runInstruction]
  split
  · exact ⟨_, rfl⟩
  · rw [runFetched]
    split
    · exact ⟨_, rfl⟩
    · split
      · exact ⟨_, rfl⟩
      · exact exec_answers _ _

theorem stepRequest_answers (s : State) : ∃ t, stepRequest s = .next t := by
  rw [stepRequest]
  split
  · exact runInstruction_answers s
  · exact ⟨s, rfl⟩
  · split
    · exact ⟨s, rfl⟩
    · exact resumeRead_answers _ _
  · exact ⟨s, rfl⟩
  · exact ⟨s, rfl⟩

/-- R55: the three answers of HostRead. -/
theorem hostRead_of_inProgress {s : State} (a : Nat) (hp : s.inProgress = true) :
    hostRead a s = .next (s.reply .readBusy) := by
  rw [hostRead, hp]
  rfl

theorem hostRead_of_lt_cap {s : State} {a : Nat} (hp : s.inProgress = false) (ha : a < s.cfg.cap) :
    hostRead a s = .next (s.reply (.word (s.cell a))) := by
  rw [hostRead, hp, if_neg (by decide), if_neg (Nat.not_le.2 ha)]

theorem hostRead_of_cap_le {s : State} {a : Nat} (hp : s.inProgress = false) (ha : s.cfg.cap ≤ a) :
    hostRead a s = .fault (.hostReadOutside a) := by
  rw [hostRead, hp, if_neg (by decide), if_pos ha]

/-- Every transaction answers a next state but a HostRead between steps of a cell that does not exist. -/
theorem hostTransaction_answers (e : HostEvent) (s : State) :
    (∃ t, hostTransaction e s = .next t) ∨ ∃ a, e = .hostRead a ∧ s.cfg.cap ≤ a ∧ s.inProgress = false := by
  cases e with
  | step => exact .inl (stepRequest_answers s)
  | reset => exact .inl ⟨_, rfl⟩
  | inResp line =>
    rw [hostTransaction]
    split
    · exact .inl (resumeRead_answers line s)
    · exact .inl ⟨s, rfl⟩
  | loadProgram ls => exact .inl ⟨_, rfl⟩
  | hostRead a =>
    cases hp : s.inProgress with
    | true => exact .inl ⟨_, hostRead_of_inProgress a hp⟩
    | false =>
      by_cases hc : s.cfg.cap ≤ a
      · exact .inr ⟨a, rfl, hc, rfl⟩
      · exact .inl ⟨_, hostRead_of_lt_cap hp (Nat.lt_of_not_le hc)⟩
  | readRegs => exact .inl ⟨_, rfl⟩

/-- Settles O33: the HostRead of `hostTransaction_answers` stands first in the queue, since no step is in progress. -/
theorem stepStopsOnlyAtHostReadOutside : Obligations.StepStopsOnlyAtHostReadOutside := by
  intro s
  have hread (a : Nat) (q : List HostEvent) (hq : s.hostq = .hostRead a :: q) : step s = hostRead a (s.setHostq q) :=
    step_of_first hq (.inl nofun)
  have hoff (a : Nat) (q : List HostEvent) (hq : s.hostq = .hostRead a :: q) (hp : s.inProgress = false)
      (ha : s.cfg.cap ≤ a) : step s = .fault (.hostReadOutside a) :=
    (hread a q hq).trans (hostRead_of_cap_le (s := s.setHostq q) hp ha)
  refine ⟨?_, fun a q hq => ⟨fun hp => ?_, fun hp ha => ?_, hoff a q hq⟩⟩
  · rcases step_cases s with ⟨e, q, ht, heq⟩ | ⟨-, heq⟩
    · rw [heq]
      rcases hostTransaction_answers e (s.setHostq q) with hnext | ⟨a, rfl, ha, hp⟩
      · exact .inl hnext
      · have hq : s.hostq = .hostRead a :: q := hostq_of_takeEvent hp ht
        exact .inr ⟨a, q, hq, ha, hp, heq ▸ hoff a q hq hp ha⟩
    · rw [heq]
      exact .inl (stepRequest_answers s)
  · exact (hread a q hq).trans (hostRead_of_inProgress (s := s.setHostq q) a hp)
  · exact (hread a q hq).trans (hostRead_of_lt_cap (s := s.setHostq q) hp ha)

/-! ### The queue during a wait -/

/-- R113: what the rest of a READ does is independent of the transactions still queued, and leaves them. -/
theorem finishRead_setHostq {s t : State} {a : Nat} {line : Line} (q : List HostEvent)
    (h : finishRead a line s = .next t) : finishRead a line (s.setHostq q) = .next (t.setHostq q) := by
  cases hp : parseInt s.cfg line with
  | none =>
    rw [finishRead_of_invalid hp] at h
    cases h
    exact finishRead_of_invalid (s := s.setHostq q) hp
  | some v =>
    by_cases hc : s.cfg.cap ≤ a
    · rw [Io.finishRead_of_cap_le hp hc] at h
      cases h
      exact Io.finishRead_of_cap_le (s := s.setHostq q) hp hc
    · have ha : a < s.cfg.cap := Nat.lt_of_not_le hc
      rw [Io.finishRead_of_lt_cap hp ha] at h
      cases h
      exact Io.finishRead_of_lt_cap (s := s.setHostq q) hp ha

/-- R113, R125: the line taken from behind pending STEPs ends the READ in progress. -/
theorem step_of_delivered_behind_steps {s : State} {n : Nat} {line : Line} {q : List HostEvent}
    (hr : s.runState = .waitInput) (hi : s.inpend = true)
    (hq : s.hostq = List.replicate n .step ++ .inResp line :: q) :
    step s = finishRead (operandOf s.ir) line ((s.setHostq (List.replicate n .step ++ q)).acceptInput) := by
  have ht : takeEvent s.inProgress s.hostq = some (.inResp line, List.replicate n .step ++ q) := by
    rw [inProgress_of_waiting hr, hq]
    exact takeEvent_replicate (e := .inResp line) nofun n q
  rw [step, transition, ht]
  exact if_pos hi

/-- Settles O27: with and without the STEPs the line goes to the same rest of the READ. -/
theorem pendingStepsWaitForTheRead : Obligations.PendingStepsWaitForTheRead := by
  intro s n line q hr hi hq
  obtain ⟨t, ht, hhostq, hinputs, hinpend, hrun⟩ :=
    finishRead_answers (operandOf s.ir) line (s := (s.setHostq q).acceptInput) rfl
  refine ⟨t, ?_, hhostq, hinpend, hinputs, hrun, ?_⟩
  · exact (Io.step_of_delivered (s := { s with hostq := .inResp line :: q }) hi rfl).trans ht
  · rw [step_of_delivered_behind_steps hr hi hq]
    exact finishRead_setHostq (List.replicate n .step ++ q) ht

end Sys2Proof.Proofs.Transactions
end

section
/-! PROOFS. What each instruction, and a READ resumed by its line, leaves alone (R36, R66). -/

namespace Sys2Proof.Proofs.Frames

open Sys2Proof Sys2Proof.Machine

/-- R109: a commit leaves no fault and no wait. -/
theorem commit_not_faulted (s : State) (n : Nat) : (s.commit n).runState ≠ .faulted :=
  commit_runState_ne n _ nofun nofun

theorem commit_not_waiting (s : State) (n : Nat) : (s.commit n).runState ≠ .waitInput :=
  commit_runState_ne n _ nofun nofun

/-- R121: only READ takes a line of the input source when it faults. -/
theorem inputs_of_fault {s : State} {i : Instr} {ls : List Line} (hi : i.opcode ≠ 10)
    (h : ls = s.inputs ∨ (∃ a, i = .read a) ∧ ls = s.inputs.tail) : ls = s.inputs := by
  rcases h with h | ⟨⟨a, rfl⟩, -⟩
  · exact h
  · exact absurd rfl hi

/-- Settles O21: of the ends of an operation, the accumulator instructions have a fault and a commit of `ACC`. -/
theorem accumulatorInstructionsFrame : Obligations.AccumulatorInstructionsFrame := by
  intro a i s t hi h
  have ho : i.opcode ∈ [20, 30, 31, 32, 33] := by
    simp only [List.mem_cons, List.not_mem_nil, or_false] at hi
    rcases hi with rfl | rfl | rfl | rfl | rfl <;> simp [Instr.opcode]
  cases exec_next h with
  | fault i c ls hc hl =>
    obtain rfl := inputs_of_fault (by rintro h10; simp [h10] at ho) hl
    exact ⟨fun _ => rfl, rfl, rfl, rfl, rfl, rfl, rfl, rfl, rfl, fun _ => ⟨rfl, rfl, rfl⟩, fun hf => absurd rfl hf⟩
  | load a ha =>
    exact ⟨fun _ => rfl, rfl, rfl, rfl, rfl, rfl, rfl, rfl, rfl,
      fun hf => absurd hf (commit_not_faulted _ _), fun _ => ⟨rfl, rfl⟩⟩
  | arith i r hi ha hr =>
    exact ⟨fun _ => rfl, rfl, rfl, rfl, rfl, rfl, rfl, rfl, rfl,
      fun hf => absurd hf (commit_not_faulted _ _), fun _ => ⟨rfl, rfl⟩⟩
  | branch i p hi hp =>
    simp only [List.mem_cons, List.not_mem_nil, or_false] at hi ho
    omega
  | wait a hi => simp [Instr.opcode] at ho
  | read a line rest v hi hp ha => simp [Instr.opcode] at ho
  | store a ha => simp [Instr.opcode] at ho
  | write a ha => simp [Instr.opcode] at ho
  | halt a => simp [Instr.opcode] at ho

/-- Settles O22: STORE ends in a fault or its write, READ in a fault, its wait or its write. -/
theorem storingInstructionsFrame : Obligations.StoringInstructionsFrame := by
  intro a i s t hi h
  have hwrite (v : Word) (b : Nat) (hb : b ≠ a) : (s.mem.write a v).read b = s.mem.read b :=
    Memory.read_write_other s.mem v hb
  simp only [List.mem_cons, List.not_mem_nil, or_false] at hi
  rcases hi with rfl | rfl
  · cases exec_next h with
    | fault i c ls hc hl =>
      obtain rfl := inputs_of_fault (i := .store a) (by simp [Instr.opcode]) hl
      exact ⟨fun _ _ => rfl, rfl, rfl, rfl, rfl, rfl, rfl, fun _ => ⟨rfl, fun hf => absurd rfl hf⟩,
        List.mem_cons_self, rfl, fun _ => ⟨rfl, rfl⟩, fun hf => absurd rfl hf⟩
    | store a ha =>
      exact ⟨hwrite s.acc, rfl, rfl, rfl, rfl, rfl, rfl, fun _ => ⟨rfl, fun _ => rfl⟩, List.mem_cons_self,
        (if_neg (commit_not_waiting _ _)).symm,
        fun hf => absurd hf (not_or.2 ⟨commit_not_faulted _ _, commit_not_waiting _ _⟩), fun _ => rfl⟩
    | arith i r hi ha hr => simp [Instr.opcode] at hi
    | branch i p hi hp => simp [Instr.opcode] at hi
  · cases exec_next h with
    | fault i c ls hc hl =>
      have hls : ls ∈ [s.inputs, s.inputs.tail] := by
        rcases hl with rfl | ⟨-, rfl⟩ <;> simp
      exact ⟨fun _ _ => rfl, rfl, rfl, rfl, rfl, rfl, rfl, nofun, hls, rfl, fun _ => ⟨rfl, rfl⟩,
        fun hf => absurd rfl hf⟩
    | wait a hi =>
      exact ⟨fun _ _ => rfl, rfl, rfl, rfl, rfl, rfl, rfl, nofun, List.mem_cons_self, rfl, fun _ => ⟨rfl, rfl⟩,
        fun _ => rfl⟩
    | read a line rest v hi hp ha =>
      have hrest : rest ∈ [s.inputs, s.inputs.tail] := by simp [hi]
      exact ⟨hwrite v, rfl, rfl, rfl, rfl, rfl, rfl, nofun, hrest, (if_neg (commit_not_waiting _ _)).symm,
        fun hf => absurd hf (not_or.2 ⟨commit_not_faulted _ _, commit_not_waiting _ _⟩), fun _ => rfl⟩
    | arith i r hi ha hr => simp [Instr.opcode] at hi
    | branch i p hi hp => simp [Instr.opcode] at hi

/-- Settles O23: WRITE ends in a fault or a commit with its line, HALT in a commit with its line, a branch in a bare
commit. -/
theorem controlAndOutputFrame : Obligations.ControlAndOutputFrame := by
  intro a i s t hi h
  have ho : i.opcode ∈ [11, 40, 41, 42, 43] := by
    simp only [List.mem_cons, List.not_mem_nil, or_false] at hi
    rcases hi with rfl | rfl | rfl | rfl | rfl <;> simp [Instr.opcode]
  cases exec_next h with
  | fault i c ls hc hl =>
    obtain rfl := inputs_of_fault (by rintro h10; simp [h10] at ho) hl
    exact ⟨fun _ => rfl, rfl, rfl, rfl, rfl, rfl, rfl, rfl, rfl, fun _ => rfl, fun _ => ⟨rfl, rfl⟩,
      fun hf => absurd rfl hf⟩
  | write b ha =>
    exact ⟨fun _ => rfl, rfl, rfl, rfl, rfl, rfl, rfl, rfl, rfl, fun hb => by simp at hb,
      fun hf => absurd hf (commit_not_faulted _ _), fun _ => ⟨rfl, rfl⟩⟩
  | branch i p hi hp =>
    exact ⟨fun _ => rfl, rfl, rfl, rfl, rfl, rfl, rfl, rfl, rfl, fun _ => rfl,
      fun hf => absurd hf (commit_not_faulted _ _), fun _ => ⟨rfl, rfl⟩⟩
  | halt b =>
    exact ⟨fun _ => rfl, rfl, rfl, rfl, rfl, rfl, rfl, rfl, rfl, fun hb => by simp at hb,
      fun hf => absurd hf (commit_not_faulted _ _), fun _ => ⟨rfl, rfl⟩⟩
  | arith i r hi ha hr =>
    simp only [List.mem_cons, List.not_mem_nil, or_false] at hi ho
    omega
  | wait a hi => simp [Instr.opcode] at ho
  | read a line rest v hi hp ha => simp [Instr.opcode] at ho
  | store a ha => simp [Instr.opcode] at ho
  | load a ha => simp [Instr.opcode] at ho

/-- R113, R125: with no transaction queued or a line delivered first, a waiting READ is held for want of a line, or goes
on with one. -/
theorem step_of_waiting {s : State} (hr : s.runState = .waitInput) (hi : s.inpend = true)
    (hq : s.hostq = [] ∨ ∃ line q, s.hostq = .inResp line :: q) :
    (s.hostq = [] ∧ step s = .next s) ∨
    ∃ line ls, ls ∈ [s.inputs, s.inputs.tail] ∧ step s = resumeRead line ((s.setHostq s.hostq.tail).setInputs ls) := by
  rcases hq with hq | ⟨line, q, hq⟩
  · have hstep : step s = stepRequest (s.setHostq s.hostq.tail) := Transactions.step_of_stepIsNext (.inl hq)
    cases hin : s.inputs with
    | nil => exact .inl ⟨hq, Io.step_of_waiting_no_line hr hin (by simp [hq])⟩
    | cons line rest =>
      refine .inr ⟨line, rest, by simp, hstep.trans ?_⟩
      simp only [stepRequest, State.setHostq_runState, hr, State.setHostq_inputs, hin]
  · refine .inr ⟨line, s.inputs, by simp, ?_⟩
    rw [Io.step_of_delivered hi hq, hq]
    rfl

/-- Settles O24: a resumed READ ends in one of two faults or in its write. -/
theorem resumedReadFrame : Obligations.ResumedReadFrame := by
  intro s t hr hi hq h
  rcases step_of_waiting hr hi hq with ⟨hnil, hheld⟩ | ⟨line, ls, hls, hresume⟩
  · rw [hheld] at h
    cases h
    exact ⟨fun _ _ => rfl, rfl, rfl, rfl, rfl, rfl, by simp [hnil], List.mem_cons_self, fun hw => absurd hr hw,
      fun _ => ⟨rfl, rfl⟩, fun _ => rfl⟩
  · rw [hresume] at h
    rcases resumeRead_next h with rfl | ⟨-, rfl⟩ | ⟨v, -, -, rfl⟩
    · exact ⟨fun _ _ => rfl, rfl, rfl, rfl, rfl, rfl, rfl, hls, fun _ => rfl, fun _ => ⟨rfl, rfl⟩,
        fun hf => absurd rfl hf⟩
    · exact ⟨fun _ _ => rfl, rfl, rfl, rfl, rfl, rfl, rfl, hls, fun _ => rfl, fun _ => ⟨rfl, rfl⟩,
        fun hf => absurd rfl hf⟩
    · exact ⟨fun b hb => Memory.read_write_other s.mem v hb, rfl, rfl, rfl, rfl, rfl, rfl, hls, fun _ => rfl,
        fun hf => absurd hf (commit_not_faulted _ _), fun _ => rfl⟩

end Sys2Proof.Proofs.Frames
end

section
/-! PROOFS. The invariant: what holds inside a step, and that every end of a step and every transaction gives the
invariant back. -/

namespace Sys2Proof.Proofs.Invariant

open Sys2Proof Sys2Proof.Machine

/-! ### Words in range -/

/-- R21, R31: every cell of a memory whose listed words are in range reads in range. -/
theorem read_inRange {c : Config} {m : Memory} (hm : m.wf) (h : ∀ x ∈ m, x.1 < c.cap ∧ InRange c x.2) (a : Nat) :
    InRange c (m.read a) := by
  by_cases hzero : m.read a = 0
  · rw [hzero]
    exact Numbers.inRange_zero c
  · exact (h _ ((MemoryData.mem_iff_read hm a _).2 ⟨rfl, hzero⟩)).2

/-- R9, R72: with `W >= 21` every word of six digits is in range. -/
theorem inRange_of_natAbs_le {c : Config} (hc : c.wf) {v : Int} (hv : v.natAbs ≤ 999999) : InRange c v := by
  obtain ⟨hw, -, -⟩ := hc
  have hpow : 2 ^ 20 ≤ 2 ^ (c.w - 1) := Nat.pow_le_pow_right (by decide) (by omega)
  rw [Numbers.inRange_iff]
  omega

/-! ### Inside a step -/

/-- What holds from the acceptance of a step, or of the line its READ waited for, to its end. -/
structure Running (s : State) : Prop where
  cfg_wf : s.cfg.wf
  pc_lt_bound : s.pc < s.cfg.bound
  acc_inRange : InRange s.cfg s.acc
  ir_inRange : InRange s.cfg s.ir
  mem_wf : s.mem.wf
  mem_cells : ∀ c ∈ s.mem, c.1 < s.cfg.cap ∧ InRange s.cfg c.2
  no_cause : s.cause = .none
  no_request : s.inpend = false

section Step

variable {s : State}

/-- R37: outside HALTED the PC is below BOUND. -/
theorem pc_lt_bound_of_inv (h : s.Inv) (hr : s.runState ≠ .halted) : s.pc < s.cfg.bound :=
  lt_of_le_of_ne h.pc_le_bound fun hpc => hr (h.halted_iff_at_bound.2 hpc)

theorem no_cause_of_inv (h : s.Inv) (hr : s.runState ≠ .faulted) : s.cause = .none := by
  by_contra hc
  exact hr (h.cause_iff_faulted.1 hc)

theorem no_request_of_inv (h : s.Inv) (hr : s.runState ≠ .waitInput) : s.inpend = false := by
  by_contra hi
  exact hr (h.inpend_iff_waiting.1 (Bool.eq_true_of_not_eq_false hi))

theorem cell_inRange_of_inv (h : s.Inv) (a : Nat) : InRange s.cfg (s.cell a) :=
  read_inRange h.mem_wf h.mem_cells a

/-- R100: READY meets what a step needs. -/
theorem running_of_ready (h : s.Inv) (hr : s.runState = .ready) : Running s where
  cfg_wf := h.cfg_wf
  pc_lt_bound := pc_lt_bound_of_inv h (by simp [hr])
  acc_inRange := h.acc_inRange
  ir_inRange := h.ir_inRange
  mem_wf := h.mem_wf
  mem_cells := h.mem_cells
  no_cause := no_cause_of_inv h (by simp [hr])
  no_request := no_request_of_inv h (by simp [hr])

/-- R125: so does WAIT_INPUT once its line has come. -/
theorem running_of_waiting (h : s.Inv) (hr : s.runState = .waitInput) : Running s.acceptInput where
  cfg_wf := h.cfg_wf
  pc_lt_bound := pc_lt_bound_of_inv (s := s) h (by simp [hr])
  acc_inRange := h.acc_inRange
  ir_inRange := h.ir_inRange
  mem_wf := h.mem_wf
  mem_cells := h.mem_cells
  no_cause := no_cause_of_inv (s := s) h (by simp [hr])
  no_request := rfl

/-- R101: the fetch of a word in range. -/
theorem Running.fetch (h : Running s) {w : Word} (hw : InRange s.cfg w) : Running (s.beginStep.setIr w) :=
  { h with ir_inRange := hw }

theorem Running.setAcc (h : Running s) {v : Word} (hv : InRange s.cfg v) : Running (s.setAcc v) :=
  { h with acc_inRange := hv }

theorem Running.setCell (h : Running s) {a : Nat} {v : Word} (ha : a < s.cfg.cap) (hv : InRange s.cfg v) :
    Running (s.setCell a v) :=
  { h with
    mem_wf := Memory.write_wf h.mem_wf a v
    mem_cells := fun c hc => by
      rcases Memory.mem_write hc with ⟨rfl, -⟩ | hc
      · exact ⟨ha, hv⟩
      · exact h.mem_cells c hc }

theorem Running.emit (h : Running s) (l : Line) : Running (s.emit l) :=
  { h with }

theorem Running.setInputs (h : Running s) (ls : List Line) : Running (s.setInputs ls) :=
  { h with }

/-- R125: a request answered at once. -/
theorem Running.requested (h : Running s) : Running s.requestInput.acceptInput :=
  { h with no_request := rfl }

/-- R109, R110: a commit ends the step in the invariant. -/
theorem Running.commit (h : Running s) {n : Nat} (hn : n ≤ s.cfg.bound) : (s.commit n).Inv where
  cfg_wf := h.cfg_wf
  pc_le_bound := hn
  acc_inRange := h.acc_inRange
  ir_inRange := h.ir_inRange
  mem_wf := h.mem_wf
  mem_cells := h.mem_cells
  cause_iff_faulted := iff_of_false (not_not.2 h.no_cause) (commit_runState_ne n _ nofun nofun)
  inpend_iff_waiting := iff_of_false (Bool.eq_false_iff.1 h.no_request) (commit_runState_ne n _ nofun nofun)
  halted_iff_at_bound := by
    rw [State.commit_runState, State.commit_pc, State.commit_cfg]
    split
    · exact iff_of_true rfl ‹_›
    · exact iff_of_false nofun ‹_›
  not_busy := commit_runState_ne n _ nofun nofun
  irAtStart_iff_waiting := iff_of_false nofun (commit_runState_ne n _ nofun nofun)
  irSeen_inRange := h.ir_inRange
  waiting_on_read := fun hw => absurd hw (commit_runState_ne n _ nofun nofun)

/-- R108: so does the sequential commit. -/
theorem Running.commitSeq (h : Running s) : s.commitSeq.Inv :=
  h.commit h.pc_lt_bound

/-- R193: a fault ends the step in the invariant. -/
theorem Running.enterFault (h : Running s) {c : Cause} (hc : c ≠ .none) : (s.enterFault c).Inv where
  cfg_wf := h.cfg_wf
  pc_le_bound := le_of_lt h.pc_lt_bound
  acc_inRange := h.acc_inRange
  ir_inRange := h.ir_inRange
  mem_wf := h.mem_wf
  mem_cells := h.mem_cells
  cause_iff_faulted := iff_of_true hc rfl
  inpend_iff_waiting := iff_of_false nofun nofun
  halted_iff_at_bound := iff_of_false nofun h.pc_lt_bound.ne
  not_busy := nofun
  irAtStart_iff_waiting := iff_of_false nofun nofun
  irSeen_inRange := h.ir_inRange
  waiting_on_read := nofun

/-- R29, R32, R125: the step of a READ that has to wait is suspended in the invariant. -/
theorem Running.requestInput (h : Running s) {w : Word} (hstart : s.irAtStart = some w) (hw : InRange s.cfg w)
    (hread : opcodeOf s.ir = 10 ∧ operandOf s.ir < s.cfg.bound ∧ s.pc < s.cfg.cap ∧ s.cell s.pc = s.ir) :
    s.requestInput.Inv where
  cfg_wf := h.cfg_wf
  pc_le_bound := le_of_lt h.pc_lt_bound
  acc_inRange := h.acc_inRange
  ir_inRange := h.ir_inRange
  mem_wf := h.mem_wf
  mem_cells := h.mem_cells
  cause_iff_faulted := iff_of_false (not_not.2 h.no_cause) nofun
  inpend_iff_waiting := iff_of_true rfl rfl
  halted_iff_at_bound := iff_of_false nofun h.pc_lt_bound.ne
  not_busy := nofun
  irAtStart_iff_waiting := iff_of_true (by simp [hstart]) rfl
  irSeen_inRange := by simpa [hstart] using hw
  waiting_on_read := fun _ => hread

/-- Every end of an operation gives the invariant, where the operation runs the word `IR` holds, fetched from `pc`. -/
theorem Running.effect (h : Running s) {i : Instr} {t : State} {w : Word} (he : Effect s i t)
    (hstart : s.irAtStart = some w) (hw : InRange s.cfg w) (hd : decode s.ir = .instr i)
    (hb : operandOf s.ir < s.cfg.bound) (hpc : s.pc < s.cfg.cap) (hfetched : s.cell s.pc = s.ir) : t.Inv := by
  obtain ⟨hopcode, hoperand, -⟩ := decode_instr hd
  have hcell (a : Nat) : InRange s.cfg (s.cell a) := read_inRange h.mem_wf h.mem_cells a
  cases he with
  | fault i c ls hc hl =>
    refine (h.setInputs ls).enterFault ?_
    rcases hc with ⟨rfl, -⟩ | rfl | rfl | rfl <;> simp
  | wait a hi => exact h.requestInput hstart hw ⟨hopcode.symm, hb, hpc, hfetched⟩
  | read a line rest v hi hp ha => exact ((h.setInputs rest).requested.setCell ha (parseInt_inRange hp)).commitSeq
  | store a ha => exact (h.setCell ha h.acc_inRange).commitSeq
  | write a ha => exact (h.emit _).commitSeq
  | load a ha => exact (h.setAcc (hcell a)).commitSeq
  | arith i r hi ha hr => exact (h.setAcc hr).commitSeq
  | branch i p hi hp =>
    refine h.commit ?_
    rcases hp with rfl | rfl
    · rw [hoperand]
      exact le_of_lt hb
    · exact le_of_lt h.pc_lt_bound
  | halt a => exact (h.emit _).commit le_rfl

/-- R100: a step from READY keeps the invariant. -/
theorem inv_of_runInstruction {t : State} (h : s.Inv) (hr : s.runState = .ready) (ht : runInstruction s = .next t) :
    t.Inv := by
  have hrun := running_of_ready h hr
  have hfetch : Running (s.beginStep.setIr (s.cell s.pc)) := hrun.fetch (cell_inRange_of_inv h s.pc)
  rcases runInstruction_next ht with ⟨-, rfl⟩ | ⟨-, -, rfl⟩ | ⟨-, -, -, rfl⟩ | ⟨hpc, hb, i, hd, he⟩
  · exact hrun.enterFault nofun
  · exact hfetch.enterFault nofun
  · exact hfetch.enterFault nofun
  · exact hfetch.effect he rfl h.ir_inRange hd hb hpc rfl

/-- R66, R125: a resumed READ keeps the invariant. -/
theorem inv_of_resumeRead {line : Line} {t : State} (h : s.Inv) (hr : s.runState = .waitInput)
    (ht : resumeRead line s = .next t) : t.Inv := by
  have hrun := running_of_waiting h hr
  rcases resumeRead_next ht with rfl | ⟨-, rfl⟩ | ⟨v, hp, ha, rfl⟩
  · exact hrun.enterFault nofun
  · exact hrun.enterFault nofun
  · exact (hrun.setCell ha (parseInt_inRange hp)).commitSeq

end Step

/-! ### Between steps -/

section Between

variable {s : State}

/-- The invariant says nothing of the traces and queues of the host's agents. -/
theorem inv_congr {t : State} (h : s.Inv)
    (ht : t = { s with out := t.out, inputs := t.inputs, hostq := t.hostq, replies := t.replies }) : t.Inv := by
  rw [ht]
  exact { h with }

/-- R38, R220: RESET gives the invariant. -/
theorem inv_resetCore (h : s.Inv) : s.resetCore.Inv where
  cfg_wf := h.cfg_wf
  pc_le_bound := Nat.zero_le _
  acc_inRange := Numbers.inRange_zero s.cfg
  ir_inRange := Numbers.inRange_zero s.cfg
  mem_wf := h.mem_wf
  mem_cells := h.mem_cells
  cause_iff_faulted := iff_of_false (not_not.2 rfl) nofun
  inpend_iff_waiting := iff_of_false nofun nofun
  halted_iff_at_bound := iff_of_false nofun (Nat.ne_of_lt h.cfg_wf.2.2)
  not_busy := nofun
  irAtStart_iff_waiting := iff_of_false nofun nofun
  irSeen_inRange := Numbers.inRange_zero s.cfg
  waiting_on_read := nofun

/-- R57: an image of words in range that fits CAP keeps the invariant, between steps. -/
theorem inv_loadImage (h : s.Inv) (hp : s.inProgress = false) {ws : List Word} (hlen : ws.length ≤ s.cfg.cap)
    (hws : ∀ v ∈ ws, InRange s.cfg v) : ({ s with mem := s.mem.loadImage s.cfg.cap ws } : State).Inv :=
  { h with
    mem_wf := Memory.loadImage_wf h.mem_wf hlen
    mem_cells := fun c hc => by
      rcases List.mem_append.1 hc with hc | hc
      · obtain ⟨-, hlt, hmem, -⟩ := Memory.mem_ofWords hc
        rw [Nat.zero_add] at hlt
        exact ⟨lt_of_lt_of_le hlt hlen, hws _ hmem⟩
      · exact h.mem_cells c (List.mem_filter.1 hc).1
    waiting_on_read := fun hw => by
      rw [Transactions.inProgress_of_waiting (s := s) hw] at hp
      cases hp }

/-- R89, R72: an accepted program is an image of words in range that fits. -/
theorem inv_load (h : s.Inv) (hp : s.inProgress = false) {ls : List Line} (hc : checkProgram s.cfg.cap ls = .ok) :
    ({ s with mem := s.mem.loadImage s.cfg.cap (ls.map lineWord) } : State).Inv := by
  obtain ⟨hlen, hgood⟩ := Load.checkProgram_eq_ok_iff.1 hc
  refine inv_loadImage h hp (by simpa using hlen) fun v hv => ?_
  obtain ⟨l, hl, rfl⟩ := List.mem_map.1 hv
  obtain ⟨hnumeric, hlength, -⟩ := hgood l hl
  exact inRange_of_natAbs_le h.cfg_wf (Lines.natAbs_lineWord_le hnumeric hlength)

end Between

/-! ### Every transition -/

/-- R8: no end of an operation changes the parameters. -/
theorem cfg_of_effect {s t : State} {i : Instr} (h : Effect s i t) : t.cfg = s.cfg := by
  cases h <;> rfl

theorem cfg_of_runInstruction {s t : State} (h : runInstruction s = .next t) : t.cfg = s.cfg := by
  rcases runInstruction_next h with ⟨-, rfl⟩ | ⟨-, -, rfl⟩ | ⟨-, -, -, rfl⟩ | ⟨-, -, i, -, he⟩
  · rfl
  · rfl
  · rfl
  · exact (cfg_of_effect he).trans rfl

theorem cfg_of_resumeRead {s t : State} {line : Line} (h : resumeRead line s = .next t) : t.cfg = s.cfg := by
  rcases resumeRead_next h with rfl | ⟨-, rfl⟩ | ⟨v, -, -, rfl⟩ <;> rfl

/-- R8: no transition changes the parameters. -/
theorem cfg_of_step {s t : State} (h : step s = .next t) : t.cfg = s.cfg := by
  cases step_next h with
  | none q hq => rfl
  | run q t hq hr h => exact (cfg_of_runInstruction h).trans rfl
  | resume q line ls t hq hr hl h => exact (cfg_of_resumeRead h).trans rfl
  | reset q ht => rfl
  | load q ls hp ht hc => rfl
  | reply q r hq => rfl

/-- Every transition keeps the invariant, whatever the host queues. -/
theorem inv_of_step {s t : State} (h : s.Inv) (ht : step s = .next t) : t.Inv := by
  have hqueue (q : List HostEvent) : (s.setHostq q).Inv := inv_congr h rfl
  cases step_next ht with
  | none q hq => exact hqueue q
  | run q t hq hr hrun => exact inv_of_runInstruction (hqueue q) hr hrun
  | resume q line ls t hq hr hl hresume =>
    have hwait : s.runState = .waitInput := hr.elim id h.inpend_iff_waiting.1
    exact inv_of_resumeRead (s := (s.setHostq q).setInputs ls) (inv_congr h rfl) hwait hresume
  | reset q hq => exact inv_resetCore (hqueue q)
  | load q ls hp hq hc => exact inv_congr (inv_load h hp hc) rfl
  | reply q r hq => exact inv_congr h rfl

/-- Settles O32: `inv_of_step` and `cfg_of_step`. -/
theorem stepKeepsInvariant : Obligations.StepKeepsInvariant :=
  fun _ _ h ht => ⟨inv_of_step h ht, cfg_of_step ht⟩

/-- Settles O31: the power-on state is a RESET of itself. -/
theorem powerOnMeetsInvariant : Obligations.PowerOnMeetsInvariant := by
  intro c hc
  exact { cfg_wf := hc
          pc_le_bound := Nat.zero_le _
          acc_inRange := Numbers.inRange_zero c
          ir_inRange := Numbers.inRange_zero c
          mem_wf := ⟨List.Pairwise.nil, nofun⟩
          mem_cells := nofun
          cause_iff_faulted := iff_of_false (not_not.2 rfl) nofun
          inpend_iff_waiting := iff_of_false nofun nofun
          halted_iff_at_bound := iff_of_false nofun (Nat.ne_of_lt hc.2.2)
          not_busy := nofun
          irAtStart_iff_waiting := iff_of_false nofun nofun
          irSeen_inRange := Numbers.inRange_zero c
          waiting_on_read := nofun }

/-- Settles O34: neither end of a transition is BUSY, so READY and WAIT_INPUT have every change left in the table, and
HALTED and FAULTED have what `transition_of_stopped` leaves them. -/
theorem stateTransitions : Obligations.StateTransitions := by
  intro s t h ht
  have htBusy : t.runState ≠ .busy := (inv_of_step h ht).not_busy
  have hstopped (hr : s.runState = .halted ∨ s.runState = .faulted) :
      (s.hostq.head? = some .reset ∧ t.runState = .ready) ∨ t.runState = s.runState := by
    have hi : s.inpend = false := no_request_of_inv h (by rcases hr with hr | hr <;> simp [hr])
    exact (Transactions.transition_of_stopped hr hi ht).imp_right And.left
  constructor
  · cases hr : s.runState with
    | busy => exact absurd hr h.not_busy
    | ready => cases htr : t.runState <;> simp [htr] at htBusy ⊢
    | waitInput => cases htr : t.runState <;> simp [htr] at htBusy ⊢
    | halted => rcases hstopped (.inl hr) with ⟨-, htr⟩ | htr <;> simp [htr, hr]
    | faulted => rcases hstopped (.inr hr) with ⟨-, htr⟩ | htr <;> simp [htr, hr]
  · intro hr hready
    rcases hstopped hr with ⟨hreset, -⟩ | hsame
    · exact hreset
    · rw [hsame] at hready
      simp [hready] at hr

end Sys2Proof.Proofs.Invariant
end

section
/-! PROOFS. STATUS and the host's register read (R27, R32). -/

namespace Sys2Proof.Proofs.Status

open Sys2Proof Sys2Proof.Machine

/-- R27: STATUS as a number, STATE in its low digit of 16 and CAUSE in the high one. -/
theorem status_toNat (s : State) : s.status.toNat = 16 * s.cause.code.toNat + s.runState.code.toNat := by
  rw [State.status]
  cases s.cause <;> cases s.runState <;> rfl

/-- R27: the three fields of STATUS. -/
theorem status_fields (s : State) :
    s.status.extractLsb' 3 1 = 0#1 ∧ s.status.extractLsb' 4 4 = s.cause.code ∧
    s.status.extractLsb' 0 3 = s.runState.code := by
  rw [State.status]
  cases s.cause <;> cases s.runState <;> decide

/-- R28: between steps CAUSE names a fault exactly in FAULTED, and so STATUS takes one of nine values, each with one
meaning. -/
theorem status_values {s : State} (h : s.Inv) :
    (s.status.toNat = 0x00 ↔ s.runState = .ready) ∧ (s.status.toNat = 0x02 ↔ s.runState = .waitInput) ∧
    (s.status.toNat = 0x03 ↔ s.runState = .halted) ∧
    (s.status.toNat = 0x14 ↔ s.runState = .faulted ∧ s.cause = .invalidAddress) ∧
    (s.status.toNat = 0x24 ↔ s.runState = .faulted ∧ s.cause = .invalidInstruction) ∧
    (s.status.toNat = 0x34 ↔ s.runState = .faulted ∧ s.cause = .invalidInput) ∧
    (s.status.toNat = 0x44 ↔ s.runState = .faulted ∧ s.cause = .divideByZero) ∧
    (s.status.toNat = 0x54 ↔ s.runState = .faulted ∧ s.cause = .overflow) ∧
    (s.status.toNat = 0x64 ↔ s.runState = .faulted ∧ s.cause = .memoryRange) := by
  rw [status_toNat]
  by_cases hf : s.runState = .faulted
  · have hc : s.cause ≠ .none := h.cause_iff_faulted.2 hf
    rw [hf]
    cases hcause : s.cause with
    | none => exact absurd hcause hc
    | invalidAddress => decide
    | invalidInstruction => decide
    | invalidInput => decide
    | divideByZero => decide
    | overflow => decide
    | memoryRange => decide
  · rw [Invariant.no_cause_of_inv h hf]
    cases hr : s.runState with
    | ready => decide
    | busy => exact absurd hr h.not_busy
    | waitInput => decide
    | halted => decide
    | faulted => exact absurd hr hf

/-- R32: a register read next in the queue is taken at once, in any STATE. -/
theorem step_of_readRegs {s : State} {q : List HostEvent} (hq : s.hostq = .readRegs :: q) :
    step s = .next { s with hostq := q, replies := s.replies ++ [.regs s.pc s.acc s.irSeen s.status] } :=
  step_of_first hq (.inl nofun)

/-- R30, R32: between steps the host reads `IR` itself. -/
theorem irSeen_of_not_inProgress {s : State} (h : s.Inv) (hp : s.inProgress = false) : s.irSeen = s.ir := by
  have hnot : s.runState ≠ .waitInput := fun hw => by
    rw [Transactions.inProgress_of_waiting hw] at hp
    cases hp
  have hnone : s.irAtStart = none := by
    rw [← Option.not_isSome_iff_eq_none, h.irAtStart_iff_waiting]
    exact hnot
  rw [State.irSeen, hnone]
  rfl

/-- Settles O58: the fields and values of STATUS, and the register read behind a READ that waits. -/
theorem statusFields : Obligations.StatusFields := by
  refine ⟨fun s => ?_, fun s q hq => ⟨step_of_readRegs hq, irSeen_of_not_inProgress⟩,
    fun s w a q h hf hw ha hi hq => ?_⟩
  · obtain ⟨hbit3, hcause, hstate⟩ := status_fields s
    exact ⟨hbit3, hcause, hstate, status_values⟩
  · have ⟨_, hr, _, _⟩ := hf
    obtain ⟨-, hwait, -⟩ := Io.readRule s w a hf hw
    have hcause : s.cause = .none := Invariant.no_cause_of_inv h (by simp [hr])
    refine ⟨_, _, hwait ha hi, step_of_readRegs (q := q) (by simp [hq]), ?_⟩
    simp only [State.status, State.irSeen, hcause, Option.getD_some]
    rfl

end Sys2Proof.Proofs.Status
end

section
/-! PROOFS. Entry into FAULTED: why, with what changed, and about which address (R190 to R193). -/

namespace Sys2Proof.Proofs.Faults

open Sys2Proof Sys2Proof.Machine

/-- Why a transition enters FAULTED: the word it leaves in `IR` and the cause. -/
inductive FaultReason (s : State) : Word → Cause → Prop
  /-- the fetch at `pc` past CAP (R101) -/
  | fetch (hc : s.cfg.cap ≤ s.pc) : FaultReason s s.ir .memoryRange
  /-- the address check (R105) -/
  | address (hb : s.cfg.bound ≤ operandOf (s.cell s.pc)) : FaultReason s (s.cell s.pc) .invalidAddress
  /-- the opcode map (R107) -/
  | opcode (n : Nat) (hd : decode (s.cell s.pc) = .undefinedOpcode n) :
      FaultReason s (s.cell s.pc) .invalidInstruction
  /-- the range check of a data access (R53) -/
  | access (hpc : s.pc < s.cfg.cap) (hb : operandOf (s.cell s.pc) < s.cfg.bound)
      (hc : s.cfg.cap ≤ operandOf (s.cell s.pc)) : FaultReason s (s.cell s.pc) .memoryRange
  /-- a line or a result that is no word (R121, R150, R158) -/
  | value (c : Cause) (hc : c ∈ [.invalidInput, .divideByZero, .overflow]) : FaultReason s (s.cell s.pc) c
  /-- the line of a READ that waited (R121) -/
  | resumedLine : FaultReason s s.ir .invalidInput
  /-- the range check of a READ that waited (R121) -/
  | resumedAccess (hr : s.runState = .waitInput ∨ s.inpend = true) (hc : s.cfg.cap ≤ operandOf s.ir) :
      FaultReason s s.ir .memoryRange

/-- The state left by a fault, by what was taken from the queue and the input source, the word in `IR` and the cause. -/
def faultState (s : State) (q : List HostEvent) (ls : List Line) (w : Word) (c : Cause) : State :=
  (((s.setHostq q).setInputs ls).setIr w).enterFault c

section Entry

variable {s t : State}

/-- Of an operation's ends only the fault leaves FAULTED. -/
theorem effect_faulted {i : Instr} (h : Effect s i t) (hf : t.runState = .faulted) :
    ∃ c ls, (c = .memoryRange ∧ s.cfg.cap ≤ i.operand ∨ c ∈ [.invalidInput, .divideByZero, .overflow]) ∧
      ls ∈ [s.inputs, s.inputs.tail] ∧ t = (s.setInputs ls).enterFault c := by
  cases h with
  | fault i c ls hc hl =>
    refine ⟨c, ls, by simpa using hc, ?_, rfl⟩
    rcases hl with rfl | ⟨-, rfl⟩ <;> simp
  | wait a hi => cases hf
  | read a line rest v hi hp ha => exact absurd hf (Frames.commit_not_faulted _ _)
  | store a ha => exact absurd hf (Frames.commit_not_faulted _ _)
  | write a ha => exact absurd hf (Frames.commit_not_faulted _ _)
  | load a ha => exact absurd hf (Frames.commit_not_faulted _ _)
  | arith i r hi ha hr => exact absurd hf (Frames.commit_not_faulted _ _)
  | branch i p hi hp => exact absurd hf (Frames.commit_not_faulted _ _)
  | halt a => exact absurd hf (Frames.commit_not_faulted _ _)

/-- R100: the faults of a step from READY. -/
theorem runInstruction_faulted (h : runInstruction s = .next t) (hf : t.runState = .faulted) :
    ∃ ls w c, ls ∈ [s.inputs, s.inputs.tail] ∧ FaultReason s w c ∧ t = faultState s s.hostq ls w c := by
  rcases runInstruction_next h with ⟨hc, rfl⟩ | ⟨-, hb, rfl⟩ | ⟨-, -, ⟨n, hd⟩, rfl⟩ | ⟨hpc, hb, i, hd, he⟩
  · exact ⟨s.inputs, _, _, List.mem_cons_self, .fetch hc, rfl⟩
  · exact ⟨s.inputs, _, _, List.mem_cons_self, .address hb, rfl⟩
  · exact ⟨s.inputs, _, _, List.mem_cons_self, .opcode n hd, rfl⟩
  · obtain ⟨c, ls, hc, hls, rfl⟩ := effect_faulted he hf
    refine ⟨ls, _, c, hls, ?_, rfl⟩
    rcases hc with ⟨rfl, hc⟩ | hc
    · exact .access hpc hb ((decode_instr hd).2.1 ▸ hc)
    · exact .value c hc

/-- R121: the faults of a READ that waited. -/
theorem resumeRead_faulted {line : Line} (h : resumeRead line s = .next t) (hf : t.runState = .faulted)
    (hr : s.runState = .waitInput ∨ s.inpend = true) :
    ∃ c, FaultReason s s.ir c ∧ t = faultState s s.hostq s.inputs s.ir c := by
  rcases resumeRead_next h with rfl | ⟨hc, rfl⟩ | ⟨v, -, -, rfl⟩
  · exact ⟨_, .resumedLine, rfl⟩
  · exact ⟨_, .resumedAccess hr hc, rfl⟩
  · exact absurd hf (Frames.commit_not_faulted _ _)

/-- A reason does not depend on what is queued. -/
theorem FaultReason.of_queues {q : List HostEvent} {ls : List Line} {w : Word} {c : Cause}
    (h : FaultReason ((s.setHostq q).setInputs ls) w c) : FaultReason s w c := by
  cases h with
  | fetch hc => exact .fetch hc
  | address hb => exact .address hb
  | opcode n hd => exact .opcode n hd
  | access hpc hb hc => exact .access hpc hb hc
  | value c hc => exact .value c hc
  | resumedLine => exact .resumedLine
  | resumedAccess hr hc => exact .resumedAccess hr hc

/-- R193: everything a transition into FAULTED can be. -/
theorem step_faulted (hs : s.runState ≠ .faulted) (h : step s = .next t) (hf : t.runState = .faulted) :
    ∃ q ls w c, QueueAfter s q ∧ ls ∈ [s.inputs, s.inputs.tail] ∧ FaultReason s w c ∧ t = faultState s q ls w c := by
  cases step_next h with
  | none q hq => exact absurd hf hs
  | run q t hq hr h =>
    obtain ⟨ls, w, c, hls, hreason, rfl⟩ := runInstruction_faulted h hf
    exact ⟨q, ls, w, c, hq, hls, .of_queues (q := q) (ls := s.inputs) hreason, rfl⟩
  | resume q line ls t hq hr hl h =>
    obtain ⟨c, hreason, rfl⟩ := resumeRead_faulted h hf hr
    exact ⟨q, ls, _, c, hq, by rcases hl with rfl | rfl <;> simp, .of_queues hreason, rfl⟩
  | reset q ht => cases hf
  | load q ls hp ht hc => exact absurd hf hs
  | reply q r hq => exact absurd hf hs

/-- R28: every reason has a cause. -/
theorem FaultReason.cause_ne_none {w : Word} {c : Cause} (h : FaultReason s w c) : c ≠ .none := by
  cases h with
  | value c hc =>
    rintro rfl
    simp at hc
  | fetch hc => nofun
  | address hb => nofun
  | opcode n hd => nofun
  | access hpc hb hc => nofun
  | resumedLine => nofun
  | resumedAccess hr hc => nofun

/-- R101: `IR` holds the fetched word or is unchanged. -/
theorem FaultReason.word {w : Word} {c : Cause} (h : FaultReason s w c) : w = s.ir ∨ w = s.cell s.pc := by
  cases h with
  | fetch hc => exact .inl rfl
  | address hb => exact .inr rfl
  | opcode n hd => exact .inr rfl
  | access hpc hb hc => exact .inr rfl
  | value c hc => exact .inr rfl
  | resumedLine => exact .inl rfl
  | resumedAccess hr hc => exact .inl rfl

/-- R105: the word of an INVALID_ADDRESS. -/
theorem FaultReason.of_invalidAddress {w : Word} (h : FaultReason s w .invalidAddress) :
    w = s.cell s.pc ∧ s.cfg.bound ≤ operandOf (s.cell s.pc) := by
  cases h with
  | address hb => exact ⟨rfl, hb⟩
  | value c hc => simp at hc

/-- R107: the word of an INVALID_INSTRUCTION. -/
theorem FaultReason.of_invalidInstruction {w : Word} (h : FaultReason s w .invalidInstruction) :
    w = s.cell s.pc ∧ ∃ n, decode (s.cell s.pc) = .undefinedOpcode n := by
  cases h with
  | opcode n hd => exact ⟨rfl, n, hd⟩
  | value c hc => simp at hc

/-- R53, R101: the two kinds of MEMORY_RANGE, by where `pc` is; a READ that waited is of the second kind, since its word
still stands at `pc`. -/
theorem FaultReason.of_memoryRange (hs : s.Inv) {w : Word} (h : FaultReason s w .memoryRange) :
    (s.cfg.cap ≤ s.pc ∧ w = s.ir) ∨
    (s.pc < s.cfg.cap ∧ w = s.cell s.pc ∧ s.cfg.cap ≤ operandOf (s.cell s.pc) ∧
      operandOf (s.cell s.pc) < s.cfg.bound) := by
  cases h with
  | fetch hc => exact .inl ⟨hc, rfl⟩
  | access hpc hb hc => exact .inr ⟨hpc, rfl, hc, hb⟩
  | value c hc => simp at hc
  | resumedAccess hr hc =>
    obtain ⟨-, hb, hpc, hcell⟩ := hs.waiting_on_read (hr.elim id hs.inpend_iff_waiting.1)
    rw [hcell]
    exact .inr ⟨hpc, rfl, hc, hb⟩

end Entry

/-- Settles O35: the state of `faultState` differs in nothing else. -/
theorem faultsArePrecise : Obligations.FaultsArePrecise := by
  intro s t hs h hf
  obtain ⟨q, ls, w, c, hq, hls, hreason, rfl⟩ := step_faulted hs h hf
  exact ⟨rfl, hreason.cause_ne_none, hreason.word, hls, hq⟩

/-- R191: the address recovered after an INVALID_ADDRESS and after a MEMORY_RANGE. -/
theorem faultAddress_of_invalidAddress {t : State} (h : t.cause = .invalidAddress) :
    t.faultAddress = some (operandOf t.ir) := by
  rw [State.faultAddress, h]

theorem faultAddress_of_memoryRange {t : State} (h : t.cause = .memoryRange) :
    t.faultAddress = some (if t.cfg.cap ≤ t.pc then t.pc else operandOf t.ir) := by
  rw [State.faultAddress, h]

/-- Settles O36: the cause tells the reason, and the reason the word in `IR`. -/
theorem faultAddressIsRecovered : Obligations.FaultAddressIsRecovered := by
  intro s t hinv hs h hf
  obtain ⟨q, ls, w, c, -, -, hreason, rfl⟩ := step_faulted hs h hf
  refine ⟨fun hc => ?_, fun hc hpc => ?_, fun hc hpc => ?_, fun hc => ?_⟩
  · obtain rfl : c = .invalidAddress := hc
    obtain ⟨rfl, hb⟩ := hreason.of_invalidAddress
    exact ⟨faultAddress_of_invalidAddress rfl, hb⟩
  · obtain rfl : c = .memoryRange := hc
    rcases hreason.of_memoryRange hinv with ⟨-, rfl⟩ | ⟨hlt, -⟩
    · exact ⟨(faultAddress_of_memoryRange rfl).trans (congrArg some (if_pos hpc)), rfl⟩
    · exact absurd hpc (Nat.not_le.2 hlt)
  · obtain rfl : c = .memoryRange := hc
    rcases hreason.of_memoryRange hinv with ⟨hle, -⟩ | ⟨-, rfl, hcap, hb⟩
    · exact absurd hpc (Nat.not_lt.2 hle)
    · exact ⟨(faultAddress_of_memoryRange rfl).trans (congrArg some (if_neg (Nat.not_le.2 hpc))), hcap, hb⟩
  · obtain rfl : c = .invalidInstruction := hc
    obtain ⟨rfl, n, hd⟩ := hreason.of_invalidInstruction
    exact ⟨rfl, (decodeFields_undefined hd).2⟩

end Sys2Proof.Proofs.Faults
end

section
/-! PROOFS. Who writes memory, `ACC` and the output trace (R34, R36, R130). -/

namespace Sys2Proof.Proofs.Writers

open Sys2Proof Sys2Proof.Machine

section Effects

variable {s t : State} {i : Instr}

/-- R101: no operation changes `IR`. -/
theorem ir_of_effect (h : Effect s i t) : t.ir = s.ir := by
  cases h <;> rfl

/-- R122, R178: WRITE and HALT emit one line each, no other end of an operation any. -/
theorem out_of_effect (h : Effect s i t) :
    t.out = s.out ∨
    (i.opcode = 11 ∧ t.out = s.out ++ [outputLine (s.cell i.operand)]) ∨
    (i.opcode = 43 ∧ t.runState = .halted ∧ t.out = s.out ++ [finishedLine]) := by
  cases h with
  | fault i c ls hc hl => exact .inl rfl
  | wait a hi => exact .inl rfl
  | read a line rest v hi hp ha => exact .inl rfl
  | store a ha => exact .inl rfl
  | write a ha => exact .inr (.inl ⟨rfl, rfl⟩)
  | load a ha => exact .inl rfl
  | arith i r hi ha hr => exact .inl rfl
  | branch i p hi hp => exact .inl rfl
  | halt a => exact .inr (.inr ⟨rfl, if_pos rfl, rfl⟩)

/-- R120, R142: only READ and STORE change a cell, their operand's. -/
theorem writer_of_effect (h : Effect s i t) {b : Nat} (hb : t.cell b ≠ s.cell b) :
    i.opcode ∈ [10, 21] ∧ b = i.operand ∧ b < s.cfg.cap := by
  cases h with
  | fault i c ls hc hl => exact absurd rfl hb
  | wait a hi => exact absurd rfl hb
  | read a line rest v hi hp ha =>
    obtain rfl := MemoryData.eq_of_read_write_ne hb
    exact ⟨by simp [Instr.opcode], rfl, ha⟩
  | store a ha =>
    obtain rfl := MemoryData.eq_of_read_write_ne hb
    exact ⟨by simp [Instr.opcode], rfl, ha⟩
  | write a ha => exact absurd rfl hb
  | load a ha => exact absurd rfl hb
  | arith i r hi ha hr => exact absurd rfl hb
  | branch i p hi hp => exact absurd rfl hb
  | halt a => exact absurd rfl hb

/-- R140, R150: only LOAD and the arithmetic instructions change `ACC`. -/
theorem accWriter_of_effect (h : Effect s i t) (ha : t.acc ≠ s.acc) : i.opcode ∈ [20, 30, 31, 32, 33] := by
  cases h with
  | fault i c ls hc hl => exact absurd rfl ha
  | wait a hi => exact absurd rfl ha
  | read a line rest v hi hp hcap => exact absurd rfl ha
  | store a hcap => exact absurd rfl ha
  | write a hcap => exact absurd rfl ha
  | load a hcap => simp [Instr.opcode]
  | arith i r hi hcap hr => exact List.mem_cons_of_mem _ hi
  | branch i p hi hp => exact absurd rfl ha
  | halt a => exact absurd rfl ha

end Effects

section Steps

variable {s t : State}

/-- R100, R193: a step from READY faults without an effect on memory, `ACC` and output, or has the effect of the
instruction it fetched. -/
theorem runInstruction_effect (h : runInstruction s = .next t) :
    (t.mem = s.mem ∧ t.acc = s.acc ∧ t.out = s.out) ∨
    ∃ i, i.opcode = opcodeOf t.ir ∧ i.operand = operandOf t.ir ∧ t.ir = s.cell s.pc ∧
      Effect (s.beginStep.setIr (s.cell s.pc)) i t := by
  rcases runInstruction_next h with ⟨-, rfl⟩ | ⟨-, -, rfl⟩ | ⟨-, -, -, rfl⟩ | ⟨-, -, i, hd, he⟩
  · exact .inl ⟨rfl, rfl, rfl⟩
  · exact .inl ⟨rfl, rfl, rfl⟩
  · exact .inl ⟨rfl, rfl, rfl⟩
  · have hir : t.ir = s.cell s.pc := ir_of_effect he
    obtain ⟨hopcode, hoperand, -⟩ := decode_instr hd
    rw [← hir] at hopcode hoperand
    exact .inr ⟨i, hopcode, hoperand, hir, he⟩

/-- R66: a resumed READ leaves `IR`, `ACC` and the output trace. -/
theorem resumeRead_keeps {line : Line} (h : resumeRead line s = .next t) :
    t.ir = s.ir ∧ t.acc = s.acc ∧ t.out = s.out := by
  rcases resumeRead_next h with rfl | ⟨-, rfl⟩ | ⟨v, -, -, rfl⟩ <;> exact ⟨rfl, rfl, rfl⟩

/-- R66: a resumed READ changes no cell but the operand of `IR`. -/
theorem resumeRead_writer {line : Line} (h : resumeRead line s = .next t) {b : Nat} (hb : t.cell b ≠ s.cell b) :
    b = operandOf s.ir ∧ b < s.cfg.cap := by
  rcases resumeRead_next h with rfl | ⟨-, rfl⟩ | ⟨v, -, ha, rfl⟩
  · exact absurd rfl hb
  · exact absurd rfl hb
  · obtain rfl := MemoryData.eq_of_read_write_ne hb
    exact ⟨rfl, ha⟩

end Steps

/-- Settles O37: of all transitions only a step from READY emits, by `out_of_effect`. -/
theorem outputLinesAreOfTwoKinds : Obligations.OutputLinesAreOfTwoKinds := by
  intro s t h
  cases step_next h with
  | none q hq => exact .inl rfl
  | run q t hq hr h =>
    rcases runInstruction_effect h with ⟨-, -, hout⟩ | ⟨i, hopcode, hoperand, hir, he⟩
    · exact .inl hout
    · rcases out_of_effect he with hout | ⟨hop, hout⟩ | ⟨hop, hhalted, hout⟩
      · exact .inl hout
      · rw [hoperand] at hout
        exact .inr ⟨hr, hir, .inl ⟨hopcode ▸ hop, hout⟩⟩
      · exact .inr ⟨hr, hir, .inr ⟨hopcode ▸ hop, hhalted, hout⟩⟩
  | resume q line ls t hq hr hl h => exact .inl (resumeRead_keeps h).2.2
  | reset q ht => exact .inl rfl
  | load q ls hp ht hc => exact .inl rfl
  | reply q r hq => exact .inl rfl

/-- Settles O38: the three kinds of transition that write memory. -/
theorem memoryWriters : Obligations.MemoryWriters := by
  intro s t b hinv h hb
  cases step_next h with
  | none q hq => exact absurd rfl hb
  | run q t hq hr h =>
    rcases runInstruction_effect h with ⟨hmem, -, -⟩ | ⟨i, hopcode, hoperand, hir, he⟩
    · exact absurd (congrArg (Memory.read · b) hmem) hb
    · obtain ⟨hop, hbi, hcap⟩ := writer_of_effect he hb
      exact .inl ⟨hr, hir, hopcode ▸ hop, hoperand ▸ hbi, hcap⟩
  | resume q line ls t hq hr hl h =>
    have hwait : s.runState = .waitInput := hr.elim id hinv.inpend_iff_waiting.1
    have hir : t.ir = s.ir := (resumeRead_keeps h).1
    obtain ⟨hbi, hcap⟩ := resumeRead_writer h hb
    exact .inr (.inl ⟨hwait, hir, hir ▸ (hinv.waiting_on_read hwait).1, hir ▸ hbi, hcap⟩)
  | reset q ht => exact absurd rfl hb
  | load q ls hp ht hc => exact .inr (.inr ⟨hp, ls, q, Transactions.hostq_of_takeEvent hp ht⟩)
  | reply q r hq => exact absurd rfl hb

/-- Settles O39: beside RESET only a step from READY changes `ACC`, by `accWriter_of_effect`. -/
theorem accumulatorWriters : Obligations.AccumulatorWriters := by
  intro s t h hacc
  cases step_next h with
  | none q hq => exact absurd rfl hacc
  | run q t hq hr h =>
    rcases runInstruction_effect h with ⟨-, hsame, -⟩ | ⟨i, hopcode, -, hir, he⟩
    · exact absurd hsame hacc
    · exact .inl ⟨hr, hir, hopcode ▸ accWriter_of_effect he hacc⟩
  | resume q line ls t hq hr hl h => exact absurd (resumeRead_keeps h).2.1 hacc
  | reset q ht => exact .inr ⟨q, ht⟩
  | load q ls hp ht hc => exact absurd rfl hacc
  | reply q r hq => exact absurd rfl hacc

end Sys2Proof.Proofs.Writers
end

section
/-! PROOFS. An instruction reads no data cell but its operand (R36). -/

namespace Sys2Proof.Proofs.OneCell

open Sys2Proof Sys2Proof.Machine

/-- The memory `n'` of a second run beside the memory `n` of the first: the same word at `a`, elsewhere that of `m`,
which the second run started from. -/
structure CellAgrees (a : Nat) (m n n' : Memory) : Prop where
  wf : n.wf
  wf' : n'.wf
  same : n'.read a = n.read a
  others : ∀ b, b ≠ a → n'.read b = m.read b

/-- Two runs that end alike in everything but memory, and in memory as `CellAgrees` says. -/
def RunsAgree (a : Nat) (m : Memory) (r r' : Result) : Prop :=
  ∃ t n', r = .next t ∧ r' = .next { t with mem := n' } ∧ CellAgrees a m t.mem n'

section Operations

variable {a : Nat} {m n' : Memory} {s : State}

theorem CellAgrees.write {n : Memory} (h : CellAgrees a m n n') (v : Word) :
    CellAgrees a m (Memory.write n a v) (Memory.write n' a v) where
  wf := Memory.write_wf h.wf a v
  wf' := Memory.write_wf h.wf' a v
  same := (Memory.read_write_same h.wf' a v).trans (Memory.read_write_same h.wf a v).symm
  others := fun b hb => (Memory.read_write_other n' v hb).trans (h.others b hb)

theorem runsAgree_raise (h : CellAgrees a m s.mem n') (c : Cause) :
    RunsAgree a m (raise c s) (raise c { s with mem := n' }) :=
  ⟨s.enterFault c, n', rfl, rfl, h⟩

theorem runsAgree_commit (h : CellAgrees a m s.mem n') (p : Nat) :
    RunsAgree a m (.next (s.commit p)) (.next (({ s with mem := n' } : State).commit p)) :=
  ⟨s.commit p, n', rfl, rfl, h⟩

/-- R53: what follows a checked read of `a` sees the same word in both runs. -/
theorem runsAgree_checkedRead {k k' : Word → Result} (h : CellAgrees a m s.mem n')
    (hk : ∀ v, RunsAgree a m (k v) (k' v)) :
    RunsAgree a m (checkedRead a s k) (checkedRead a { s with mem := n' } k') := by
  have hcell : ({ s with mem := n' } : State).cell a = s.cell a := h.same
  simp only [checkedRead, hcell]
  split
  · exact runsAgree_raise h _
  · exact hk _

theorem runsAgree_checkedWriteCommit (h : CellAgrees a m s.mem n') (v : Word) :
    RunsAgree a m (checkedWriteCommit a v s) (checkedWriteCommit a v { s with mem := n' }) := by
  simp only [checkedWriteCommit]
  split
  · exact runsAgree_raise h _
  · exact ⟨(s.setCell a v).commitSeq, n'.write a v, rfl, rfl, h.write v⟩

theorem runsAgree_writeAccChecked (h : CellAgrees a m s.mem n') (r : Int) :
    RunsAgree a m (writeAccChecked r s) (writeAccChecked r { s with mem := n' }) := by
  simp only [writeAccChecked]
  split
  · exact runsAgree_commit (s := s.setAcc r) h _
  · exact runsAgree_raise h _

theorem runsAgree_finishRead (h : CellAgrees a m s.mem n') (line : Line) :
    RunsAgree a m (finishRead a line s) (finishRead a line { s with mem := n' }) := by
  simp only [finishRead]
  split
  · exact runsAgree_raise h _
  · exact runsAgree_checkedWriteCommit h _

theorem runsAgree_execRead (h : CellAgrees a m s.mem n') :
    RunsAgree a m (execRead a s) (execRead a { s with mem := n' }) := by
  simp only [execRead]
  split
  next => exact ⟨s.requestInput, n', rfl, rfl, h⟩
  next line rest _ => exact runsAgree_finishRead (s := (s.setInputs rest).requestInput.acceptInput) h line

theorem runsAgree_execDivide (h : CellAgrees a m s.mem n') :
    RunsAgree a m (execDivide a s) (execDivide a { s with mem := n' }) := by
  refine runsAgree_checkedRead h fun d => ?_
  by_cases hd : d = 0
  · simp only [hd, if_true]
    exact runsAgree_raise h _
  · simp only [hd, if_false]
    exact runsAgree_writeAccChecked h _

end Operations

/-- Every instruction, from two memories that agree at its operand. -/
theorem runsAgree_exec {i : Instr} {s : State} {m n' : Memory} (h : CellAgrees i.operand m s.mem n') :
    RunsAgree i.operand m (exec i s) (exec i { s with mem := n' }) := by
  cases i with
  | read a => exact runsAgree_execRead h
  | write a => exact runsAgree_checkedRead h fun v => runsAgree_commit (s := s.emit (outputLine v)) h _
  | load a => exact runsAgree_checkedRead h fun v => runsAgree_commit (s := s.setAcc v) h _
  | store a => exact runsAgree_checkedWriteCommit h _
  | add a => exact runsAgree_checkedRead h fun v => runsAgree_writeAccChecked h _
  | subtract a => exact runsAgree_checkedRead h fun v => runsAgree_writeAccChecked h _
  | divide a => exact runsAgree_execDivide h
  | multiply a => exact runsAgree_checkedRead h fun v => runsAgree_writeAccChecked h _
  | branch a => exact runsAgree_commit h _
  | branchneg a => exact runsAgree_commit h _
  | branchzero a => exact runsAgree_commit h _
  | halt a => exact runsAgree_commit (s := s.emit finishedLine) h _

/-- Settles O40: the replaced memory agrees at the operand, and `runsAgree_exec` keeps it so. -/
theorem onlyTheOperandCellIsRead : Obligations.OnlyTheOperandCellIsRead := by
  intro i s t m hs hm hread h
  obtain ⟨t0, n', ht, ht', hagrees⟩ := runsAgree_exec (i := i) (s := s) (n' := m) ⟨hs, hm, hread, fun _ _ => rfl⟩
  obtain rfl : t0 = t := by
    rw [ht] at h
    cases h
    rfl
  exact ⟨_, ht', rfl, hagrees.same, hagrees.others⟩

end Sys2Proof.Proofs.OneCell
end

section
/-! PROOFS. Two or more steps in a row: the copy of a word, a branch not taken, a word stored and then fetched. -/

namespace Sys2Proof.Proofs.Runs

open Sys2Proof Sys2Proof.Machine

/-- R109: a step that commits a PC below BOUND leaves STATE READY. -/
theorem stateAt_of_lt {c : Config} {p : Nat} (h : p < c.bound) : stateAt c p = .ready :=
  if_neg h.ne

/-- R144: the state a completed LOAD of `x` leaves. -/
theorem step_of_fetched_load {s : State} {x : Nat} (hf : Fetches s (encode (.load x))) (hx : x ≤ 999)
    (hb : x < s.cfg.bound) (hc : x < s.cfg.cap) :
    step s = .next { s with
      hostq := s.hostq.tail, ir := encode (.load x), acc := s.cell x,
      pc := s.pc + 1, irAtStart := none, runState := stateAt s.cfg (s.pc + 1) } :=
  (LoadStore.loadRule s _ x hf (hasFields_enc hx)).2.2 hb hc

/-- R144: the state a completed STORE to `y` leaves. -/
theorem step_of_fetched_store {s : State} {w : Word} {y : Nat} (hf : Fetches s w) (hw : HasFields w 21 y)
    (hb : y < s.cfg.bound) (hc : y < s.cfg.cap) :
    step s = .next { s with
      hostq := s.hostq.tail, ir := w, mem := s.mem.write y s.acc,
      pc := s.pc + 1, irAtStart := none, runState := stateAt s.cfg (s.pc + 1) } :=
  (LoadStore.storeRule s w y hf hw).2.2 hb hc

/-- Settles O41: the LOAD leaves a state that fetches the STORE. -/
theorem copyLaw : Obligations.CopyLaw := by
  intro s x y hm hq hr hb hc hx hy hxb hxc hyb hyc hload hstore
  have hload' := step_of_fetched_load ⟨.inl hq, hr, by omega, hload⟩ hx hxb hxc
  refine ⟨_, _, hload',
    step_of_fetched_store (y := y) ⟨.inl ?_, stateAt_of_lt hb, hc, hstore⟩ (hasFields_enc hy) hyb hyc,
    Memory.read_write_same hm y _, rfl, rfl⟩
  rw [hq, List.tail_nil]

/-- Settles O43: the STORE leaves a state that fetches what it wrote. -/
theorem storedWordIsFetched : Obligations.StoredWordIsFetched := by
  intro s t w hm hf hq hw hb hc h
  rw [step_of_fetched_store hf hw hb hc] at h
  cases h
  refine ⟨.inl ?_, stateAt_of_lt hb, hc, Memory.read_write_same hm _ _⟩
  rw [hq, List.tail_nil]

/-- R172, R175, R177: a conditional branch that is not taken leaves its word in `IR` and STATE READY. -/
theorem step_of_not_taken {s : State} {w : Word} {o a : Nat} (hf : Fetches s w) (hw : HasFields w o a)
    (hpc : s.pc < s.cfg.bound) (ha : a < s.cfg.bound) (hacc : o = 41 ∧ 0 ≤ s.acc ∨ o = 42 ∧ s.acc ≠ 0) :
    step s = .next { s with hostq := s.hostq.tail, ir := w, irAtStart := none, runState := .ready } := by
  rcases hacc with ⟨rfl, hacc⟩ | ⟨rfl, hacc⟩
  · exact (Control.branchnegRule s w a hf hw hpc).2.2 ha hacc
  · exact (Control.branchzeroRule s w a hf hw hpc).2.2 ha hacc

theorem core_run_succ {s t : State} (h : step s = .next t) (k : Nat) : core.run (k + 1) s = core.run k t := by
  have hcore : core.step s = .next t := h
  simp only [Host.Core.run, hcore]

/-- A state that steps to itself is where every run from it ends. -/
theorem core_run_of_fixed {t : State} (h : step t = .next t) (k : Nat) : core.run k t = .next t := by
  induction k with
  | zero => rfl
  | succ k ih => rw [core_run_succ h, ih]

/-- Settles O42: the state after the branch fetches the same word, and the branch leads it to itself. -/
theorem notTakenBranchRepeatsForever : Obligations.NotTakenBranchRepeatsForever := by
  intro s w o a hf hq hw hpc ha hacc k
  have ⟨_, hr, hc, hcell⟩ := hf
  have htail : s.hostq.tail = s.hostq := by rw [hq, List.tail_nil]
  have hfirst : step s = .next { s with ir := w, irAtStart := none } := by
    have h := step_of_not_taken hf hw hpc ha hacc
    rwa [htail, ← hr] at h
  have hagain : step { s with ir := w, irAtStart := none } = .next { s with ir := w, irAtStart := none } := by
    have h := step_of_not_taken (s := { s with ir := w, irAtStart := none }) ⟨.inl hq, hr, hc, hcell⟩ hw hpc ha hacc
    rwa [htail, ← hr] at h
  rw [core_run_succ hfirst]
  exact core_run_of_fixed hagain k

end Sys2Proof.Proofs.Runs
end
